-- ==== Sys2Proof/Word.lean ====
section
/-! DEFINITION. The words SyncFIFO handles: an element, a control word, and what the host drives in one cycle. -/

namespace Sys2Proof

/-- One element, as the unsigned number its DATA_W bits denote (00_scope.md R11; 20_memory.md R53, R54).
That a stored element is below `2 ^ DATA_W` is an invariant of the state (log 2, DEDUCED, safe). -/
abbrev Elem := Nat

/-- The control word `CTRL[4:0] = {rst, wr_ovw, wr_en, rd_peek, rd_en}` (30_encoding.md R70). -/
abbrev Ctrl := BitVec 5

/-- What the host drives on the input ports in one cycle: the control word and `wr_data` (30_encoding.md R70). -/
structure Input where
  ctrl   : Ctrl
  wrData : Elem
  deriving DecidableEq, Repr

end Sys2Proof
end

