-- ==== Sys2Proof/Config.lean ====
section
/-! DEFINITION. The configuration of an instance (00_scope.md R8), the parameters offered to NEW (40_construction.md),
and the free values of the points the spec leaves unspecified. -/

namespace Sys2Proof

/-- `MODE`: the full/empty disambiguation strategy (00_scope.md R8, D3). -/
inductive Mode where
  | twoCursor
  | countTracked
  deriving DecidableEq, Repr

/-- A value offered for `MODE` at elaboration; `other` is any value outside the legal set (40_construction.md R103). -/
inductive ModeParam where
  | twoCursor
  | countTracked
  | other (code : Nat)
  deriving DecidableEq, Repr

/-- What NEW is given: the four parameters of 00_scope.md R8 as raw values, and the bound `MAX_PTR_W` of the
implementation that elaborates them (00_scope.md R10, D16; `none`: no bound, as in the spec itself; log 11). -/
structure NewParams where
  reqCapacity  : Nat
  dataW        : Nat
  mode         : ModeParam
  hasOverwrite : Nat
  maxPtrW      : Option Nat
  deriving DecidableEq, Repr

/-- The configuration constants of an instance (00_scope.md R8; 10_state.md R20). -/
structure Config where
  /-- `REQ_CAPACITY` -/
  reqCapacity  : Nat
  /-- `DATA_W` -/
  dataW        : Nat
  /-- `MODE` -/
  mode         : Mode
  /-- `HAS_OVERWRITE` -/
  hasOverwrite : Bool
  deriving DecidableEq, Repr

namespace Config

/-- The legal values of the parameters (00_scope.md R8; the other two are legal by their types). -/
abbrev legal (c : Config) : Prop := 1 ≤ c.reqCapacity ∧ 1 ≤ c.dataW

/-- The instance `SyncFIFO-TWO_CURSOR-N5-W8-OVW`, whose state `State.reset` is.
DESIGN CHOICE, unsafe (log 1): the spec elaborates no particular instance. -/
def resetInstance : Config where
  reqCapacity  := 5
  dataW        := 8
  mode         := .twoCursor
  hasOverwrite := true

/-- The points at which the spec leaves a value unspecified (93_implementation_defined.md U8, U9). -/
inductive FreePoint where
  /-- `rd_data` in a cycle whose `rd_resp` is not OK -/
  | rdData
  /-- `empty`, `full` and `count` before the first reset -/
  | empty
  | full
  | count
  /-- the registers at power-on -/
  | readIndex
  | writeIndex
  | countReg
  deriving DecidableEq, Repr

/-- The free value of `width` bits at a point, in draw number `n` (44_cycle.md R183: "a draw in the model").
It has no body: nothing can be proved of which value it is (log 4, safe). -/
opaque freeValue (point : FreePoint) (width n : Nat) : BitVec width

end Config

end Sys2Proof
end

