-- ==== Sys2Proof/Syntax.lean ====
section
/-! DEFINITION. The instructions: one constructor per row of spec/opcode_table.json. -/

namespace Sys2Proof

/-- The commands of SyncFIFO (00_scope.md R2), one constructor per row of the opcode table. -/
inductive Instr where
  /-- NOP_P, `P = 00`: no producer command (41_producer.md R110) -/
  | nopP
  /-- PUSH, `P = 01`: reject-on-full push of `wr_data` (41_producer.md R111) -/
  | push (wrData : Elem)
  /-- RSV_P, `P = 10`: reserved, the producer modifier without its enable (30_encoding.md R76, R77) -/
  | rsvP
  /-- PUSH_OVW, `P = 11`: overwrite-on-full push of `wr_data` (41_producer.md R112) -/
  | pushOvw (wrData : Elem)
  /-- NOP_C, `C = 00`: no consumer command (42_consumer.md R130) -/
  | nopC
  /-- POP, `C = 01` (42_consumer.md R131) -/
  | pop
  /-- RSV_C, `C = 10`: reserved, the consumer modifier without its enable (30_encoding.md R76) -/
  | rsvC
  /-- PEEK, `C = 11` (42_consumer.md R132) -/
  | peek
  /-- RESET, `CTRL[4] = 1` (70_reset_and_hazards.md R230) -/
  | reset
  /-- IS_EMPTY, the status output `empty` (43_status.md R150); no encoding (30_encoding.md R79) -/
  | isEmpty
  /-- IS_FULL, the status output `full` (43_status.md R151); no encoding -/
  | isFull
  /-- LEN, the status output `count` (43_status.md R152); no encoding -/
  | len
  /-- NEW, elaboration of an instance (40_construction.md R101); no runtime encoding (30_encoding.md R80) -/
  | new (params : NewParams)
  deriving DecidableEq, Repr

end Sys2Proof
end

