-- ==== Sys2Proof/WellFormed.lean ====
section
/-! DEFINITION. Which instructions are well formed for a configuration. -/

namespace Sys2Proof

/-- An element of `w` bits (20_memory.md R53). -/
def Elem.fits (w : Nat) (d : Elem) : Bool := decide (d < 2 ^ w)

/-- The parameters NEW accepts are those of 00_scope.md R8 (the bound `MAX_PTR_W` is the implementation's, R10,
and is no matter of form). -/
def NewParams.wf (p : NewParams) : Bool :=
  decide (1 ≤ p.reqCapacity) && decide (1 ≤ p.dataW) &&
    (p.mode == .twoCursor || p.mode == .countTracked) && decide (p.hasOverwrite ≤ 1)

/-- Well formed: a pushed element has DATA_W bits (30_encoding.md R75), the codes with the port `wr_ovw` are there
only with HAS_OVERWRITE = 1 (30_encoding.md R77), and NEW has legal parameters (00_scope.md R8). -/
def Instr.wf (c : Config) : Instr → Bool
  | .nopP      => true
  | .push d    => Elem.fits c.dataW d
  | .rsvP      => c.hasOverwrite
  | .pushOvw d => c.hasOverwrite && Elem.fits c.dataW d
  | .nopC      => true
  | .pop       => true
  | .rsvC      => true
  | .peek      => true
  | .reset     => true
  | .isEmpty   => true
  | .isFull    => true
  | .len       => true
  | .new p     => p.wf

end Sys2Proof
end

