-- ==== Sys2Proof/Decode.lean ====
section
/-! DEFINITION. The control word: its decoder (30_encoding.md R70-R77), its encoder, and the opcode table as data. -/

namespace Sys2Proof

/-- The command a producer field selects: a producer row of the opcode table (30_encoding.md R71, R76). -/
inductive ProducerCmd where
  | nopP
  | push (wrData : Elem)
  | rsvP
  | pushOvw (wrData : Elem)
  deriving DecidableEq, Repr

/-- The command a consumer field selects: a consumer row of the opcode table (30_encoding.md R72, R76). -/
inductive ConsumerCmd where
  | nopC
  | pop
  | rsvC
  | peek
  deriving DecidableEq, Repr

/-- What a control word spells: a RESET cycle, or one producer and one consumer command (30_encoding.md R74). -/
inductive Decoded where
  | reset
  | cycle (p : ProducerCmd) (c : ConsumerCmd)
  deriving DecidableEq, Repr

/-- The one reason a control word spells nothing (30_encoding.md R77). -/
inductive DecodeError where
  | overwriteNotConfigured
  deriving DecidableEq, Repr

/-- The opcode-table row of a producer command. -/
def ProducerCmd.instr : ProducerCmd → Instr
  | .nopP      => .nopP
  | .push d    => .push d
  | .rsvP      => .rsvP
  | .pushOvw d => .pushOvw d

/-- The opcode-table row of a consumer command. -/
def ConsumerCmd.instr : ConsumerCmd → Instr
  | .nopC => .nopC
  | .pop  => .pop
  | .rsvC => .rsvC
  | .peek => .peek

/-- `CTRL[4]`, the port `rst` (30_encoding.md R70). -/
def Ctrl.rst (w : Ctrl) : Bool := w.getLsbD 4

/-- `CTRL[3]`, the port `wr_ovw` (30_encoding.md R70). -/
def Ctrl.wrOvw (w : Ctrl) : Bool := w.getLsbD 3

/-- The producer field `P = CTRL[3:2]` (30_encoding.md R71). -/
def Ctrl.producerField (w : Ctrl) : BitVec 2 := w.extractLsb' 2 2

/-- The consumer field `C = CTRL[1:0]` (30_encoding.md R72). -/
def Ctrl.consumerField (w : Ctrl) : BitVec 2 := w.extractLsb' 0 2

/-- The producer command of a producer field (30_encoding.md R71). -/
def decodeProducer (p : BitVec 2) (d : Elem) : ProducerCmd :=
  if p = 0b00#2 then .nopP
  else if p = 0b01#2 then .push d
  else if p = 0b10#2 then .rsvP
  else .pushOvw d

/-- The consumer command of a consumer field (30_encoding.md R72). -/
def decodeConsumer (c : BitVec 2) : ConsumerCmd :=
  if c = 0b00#2 then .nopC
  else if c = 0b01#2 then .pop
  else if c = 0b10#2 then .rsvC
  else .peek

/-- What the DATA_W wires of `wr_data` carry (10_state.md R33; log 2). -/
def Config.sample (c : Config) (d : Nat) : Elem := d % 2 ^ c.dataW

/-- The decoder of 30_encoding.md R74. A reserved code decodes to its own row, which executes as the port's NOP (R76). -/
def decode (c : Config) (w : Input) : Except DecodeError Decoded :=
  if w.ctrl.rst then .ok .reset
  else if !c.hasOverwrite && w.ctrl.wrOvw then .error .overwriteNotConfigured
  else .ok (.cycle (decodeProducer w.ctrl.producerField (c.sample w.wrData))
                   (decodeConsumer w.ctrl.consumerField))

/-- The ONE row that names a decoded word where a single row is asked for: the row of the only port that carries a
command; the producer's row where both do or neither does (DESIGN CHOICE, log 9). -/
def Decoded.row : Decoded → Instr
  | .reset            => .reset
  | .cycle .nopP .nopC => Instr.nopP
  | .cycle .nopP c    => c.instr
  | .cycle p _        => p.instr

/-- An instruction laid out as one number: CTRL in bits 4..0, bits 7..5 zero, `wr_data` from bit 8 on
(DESIGN CHOICE, log 9). -/
def inputOfWord (nbits w : Nat) : Input :=
  let v := w % 2 ^ nbits
  { ctrl := BitVec.ofNat 5 v, wrData := v / 2 ^ 8 }

/-- The row the decoder reads from a word numbered as the opcode table numbers it, in the configuration of
`State.reset`; none where a bit stands in 7..5, which are no part of the control word (log 9). -/
def decodeTableWord (nbits w : Nat) : Option Instr :=
  if w % 2 ^ nbits / 2 ^ 5 % 2 ^ 3 = 0 then
    match decode Config.resetInstance (inputOfWord nbits w) with
    | .ok dec  => some dec.row
    | .error _ => none
  else none

/-- The code `P` of a producer command (30_encoding.md R71). -/
def ProducerCmd.code : ProducerCmd → BitVec 2
  | .nopP      => 0b00#2
  | .push _    => 0b01#2
  | .rsvP      => 0b10#2
  | .pushOvw _ => 0b11#2

/-- The code `C` of a consumer command (30_encoding.md R72). -/
def ConsumerCmd.code : ConsumerCmd → BitVec 2
  | .nopC => 0b00#2
  | .pop  => 0b01#2
  | .rsvC => 0b10#2
  | .peek => 0b11#2

/-- What a producer command puts on `wr_data`: its element, or `bus` where it has no operand. -/
def ProducerCmd.data (bus : Elem) : ProducerCmd → Elem
  | .nopP      => bus
  | .push d    => d
  | .rsvP      => bus
  | .pushOvw d => d

/-- The control word and `wr_data` of a cycle: `CTRL = (R, P[1], P[0], C[1], C[0])`, `wr_data` the value pushed and 0
otherwise (30_encoding.md R84). -/
def encodeCycle : Decoded → Input
  | .reset     => { ctrl := 0b10000#5, wrData := 0 }
  | .cycle p c => { ctrl := 0#1 ++ (p.code ++ c.code), wrData := p.data 0 }

/-- The cycle that carries an instruction alone, the other port idle; none for the rows that have no control word
(30_encoding.md R79, R80). -/
def Instr.alone : Instr → Option Decoded
  | .nopP      => some (.cycle .nopP .nopC)
  | .push d    => some (.cycle (.push d) .nopC)
  | .rsvP      => some (.cycle .rsvP .nopC)
  | .pushOvw d => some (.cycle (.pushOvw d) .nopC)
  | .nopC      => some (.cycle .nopP .nopC)
  | .pop       => some (.cycle .nopP .pop)
  | .rsvC      => some (.cycle .nopP .rsvC)
  | .peek      => some (.cycle .nopP .peek)
  | .reset     => some .reset
  | .isEmpty   => none
  | .isFull    => none
  | .len       => none
  | .new _     => none

/-- The word of an instruction driven alone. -/
def encode (i : Instr) : Option Input := i.alone.map encodeCycle

/-- A row of the opcode table that has a control word: it matches `w` when `w &&& mask = pattern`. -/
structure OpRow where
  mnemonic : String
  pattern  : Ctrl
  mask     : Ctrl
  deriving DecidableEq, Repr

/-- The row is selected by the control word. -/
def OpRow.selects (r : OpRow) (w : Ctrl) : Bool := w &&& r.mask == r.pattern

/-- The producer rows of the opcode table (format CTRL5-P). -/
def producerRows : List OpRow :=
  [ { mnemonic := "NOP_P",    pattern := 0b00000#5, mask := 0b11100#5 },
    { mnemonic := "PUSH",     pattern := 0b00100#5, mask := 0b11100#5 },
    { mnemonic := "RSV_P",    pattern := 0b01000#5, mask := 0b11100#5 },
    { mnemonic := "PUSH_OVW", pattern := 0b01100#5, mask := 0b11100#5 } ]

/-- The consumer rows of the opcode table (format CTRL5-C). -/
def consumerRows : List OpRow :=
  [ { mnemonic := "NOP_C", pattern := 0b00000#5, mask := 0b10011#5 },
    { mnemonic := "POP",   pattern := 0b00001#5, mask := 0b10011#5 },
    { mnemonic := "RSV_C", pattern := 0b00010#5, mask := 0b10011#5 },
    { mnemonic := "PEEK",  pattern := 0b00011#5, mask := 0b10011#5 } ]

/-- The RESET row of the opcode table (format CTRL5-R). -/
def resetRow : OpRow := { mnemonic := "RESET", pattern := 0b10000#5, mask := 0b10000#5 }

/-- The status rows of the opcode table (format STATUS): mask 0, selected by every control word (30_encoding.md R79). -/
def statusRows : List OpRow :=
  [ { mnemonic := "IS_EMPTY", pattern := 0b00000#5, mask := 0b00000#5 },
    { mnemonic := "IS_FULL",  pattern := 0b00000#5, mask := 0b00000#5 },
    { mnemonic := "LEN",      pattern := 0b00000#5, mask := 0b00000#5 } ]

/-- The table's name of an instruction. -/
def Instr.mnemonic : Instr → String
  | .nopP      => "NOP_P"
  | .push _    => "PUSH"
  | .rsvP      => "RSV_P"
  | .pushOvw _ => "PUSH_OVW"
  | .nopC      => "NOP_C"
  | .pop       => "POP"
  | .rsvC      => "RSV_C"
  | .peek      => "PEEK"
  | .reset     => "RESET"
  | .isEmpty   => "IS_EMPTY"
  | .isFull    => "IS_FULL"
  | .len       => "LEN"
  | .new _     => "NEW"

end Sys2Proof
end

