-- ==== Sys2Proof/Machine/State.lean ====
section
/-! DEFINITION. The state of the machine: 10_state.md R35 and the model's own fields; its faults and refusals. -/

namespace Sys2Proof.Machine

/-- Why a run faults (60_exceptions.md R200). -/
inductive Fault where
  /-- `SlotUnwritten`: POP or PEEK reads a slot that holds no value (60_exceptions.md R205). Safe: a faulted run proves
  nothing (D22). Raised by `memRead`. -/
  | slotUnwritten
  deriving DecidableEq, Repr

/-- Why the model gives no meaning to an input (60_exceptions.md R200, R204). Every refusal is safe. -/
inductive Refusal where
  /-- An instruction whose arm has no meaning yet. Raised by `exec`. -/
  | notModelled (mnemonic : String)
  /-- `NotReset`: a non-RESET cycle before the first RESET cycle (70_reset_and_hazards.md R232). Raised by `whenReady`. -/
  | notReset
  /-- `OverwriteNotConfigured`: `CTRL[3] = 1` with HAS_OVERWRITE = 0 (30_encoding.md R77). Raised by `whenOverwrite`
  and for a word the decoder refuses. -/
  | overwriteNotConfigured
  /-- `InvalidCapacity`: NEW with REQ_CAPACITY = 0 (40_construction.md R102). Raised by `execNew`. -/
  | invalidCapacity
  /-- `InvalidConfiguration`: NEW with another parameter outside its set (40_construction.md R103). Raised by `execNew`. -/
  | invalidConfiguration
  /-- NEW with a capacity above the implementation's `MAX_PTR_W` (00_scope.md R10, D16). Raised by `execNew`. -/
  | capacityAboveMaxPtrW
  /-- The host's input sequence has ended: there is no further cycle to run (log 3). Raised by `takeStep`. -/
  | noControlWord
  deriving DecidableEq, Repr

/-- The producer response `wr_resp` (30_encoding.md R81). -/
inductive WrResp where
  | idle
  | ok
  | full
  deriving DecidableEq, Repr

/-- The consumer response `rd_resp` (30_encoding.md R81). -/
inductive RdResp where
  | idle
  | ok
  | empty
  deriving DecidableEq, Repr

/-- The output ports, as driven during one cycle (10_state.md R33; 44_cycle.md R172). -/
structure Outputs where
  /-- `empty` -/
  empty    : Bool
  /-- `full` -/
  full     : Bool
  /-- `count` -/
  count    : Nat
  /-- `wr_resp` -/
  wrResp   : WrResp
  /-- `rd_resp` -/
  rdResp   : RdResp
  /-- `rd_data`; a free value unless `rd_resp` is OK (D12) -/
  rdData   : Elem
  /-- `ram_we` -/
  ramWe    : Bool
  /-- `ram_waddr` -/
  ramWaddr : Nat
  /-- `ram_wdata` -/
  ramWdata : Elem
  /-- `ram_raddr` -/
  ramRaddr : Nat
  deriving DecidableEq, Repr

/-- The storage (10_state.md R26, R27): the slots that hold a value, each with its element. An unlisted slot holds
*no value*. -/
abbrev Memory := List (Nat × Elem)

/-- The canonical form: slot indices strictly rising. (No entry can equal what an unlisted slot reads as: an unlisted
slot reads as no value, an entry is a value.) -/
abbrev Memory.wf (m : Memory) : Prop := m.Pairwise (fun a b => a.1 < b.1)

/-- The state of SyncFIFO: the constants of 10_state.md R20, the state of R35, and four fields of the model's own. -/
structure State where
  /-- the configuration constants (10_state.md R20) -/
  cfg        : Config
  /-- `read_index` (10_state.md R22) -/
  readIndex  : Nat
  /-- `write_index` (10_state.md R23) -/
  writeIndex : Nat
  /-- `count_reg` (10_state.md R24); no register, and held 0, under TWO_CURSOR (log 8) -/
  countReg   : Nat
  /-- `storage` (10_state.md R26) -/
  storage    : Memory
  /-- the model-only mark `reset_seen` (70_reset_and_hazards.md R232) -/
  resetSeen  : Bool
  /-- the model-only mark `faulted`, with its reason (60_exceptions.md R205) -/
  faulted    : Option Fault
  /-- the model-only mark `refused`, with its reason (60_exceptions.md R204) -/
  refused    : Option Refusal
  /-- the model's own: what the host drives in the coming cycles, oldest first (log 3) -/
  inputs     : List Input
  /-- the model's own: the value on the port `wr_data` in the current cycle (log 6) -/
  wrBus      : Elem
  /-- the model's own: the outputs of the cycle just ended (log 5) -/
  out        : Outputs
  /-- the model's own: the number of the next draw of free values (log 4) -/
  draws      : Nat
  deriving DecidableEq, Repr

/-- The machine right after reset (10_state.md R34; 70_reset_and_hazards.md R230), for the instance
`Config.resetInstance` (log 1). `out` holds the outputs of a further RESET cycle in that state (R231, log 5). -/
def State.reset : State where
  cfg        := Config.resetInstance
  readIndex  := 0
  writeIndex := 0
  countReg   := 0
  storage    := []
  resetSeen  := true
  faulted    := none
  refused    := none
  inputs     := []
  wrBus      := 0
  out        := { empty := true, full := false, count := 0, wrResp := .idle, rdResp := .idle, rdData := 0,
                  ramWe := false, ramWaddr := 0, ramWdata := 0, ramRaddr := 0 }
  draws      := 0

end Sys2Proof.Machine
end

