-- ==== Sys2Proof/Machine/Operands.lean ====
section
/-! DEFINITION. The derived constants of a configuration and the index arithmetic over them
(10_state.md R21; 40_construction.md R100-R107; 00_scope.md R12). -/

namespace Sys2Proof

/-- The loop of `RoundUpToPow2`, `p <- 2 * p` while `p < n`, cut after `fuel` rounds. -/
def roundUpFrom : (fuel p n : Nat) → Nat
  | 0,        p, _ => p
  | fuel + 1, p, n => if p < n then roundUpFrom fuel (2 * p) n else p

/-- `RoundUpToPow2(n)` (40_construction.md R100); `n` rounds are more than the loop needs. -/
def roundUpToPow2 (n : Nat) : Nat := roundUpFrom n 1 n

namespace Config

/-- `CAPACITY` (40_construction.md R101). -/
def capacity (c : Config) : Nat := roundUpToPow2 c.reqCapacity

/-- `MASK` (10_state.md R21). -/
def mask (c : Config) : Nat := c.capacity - 1

/-- `PTR_W`, the exponent `k` with `CAPACITY = 2 ^ k` (10_state.md R21). -/
def ptrW (c : Config) : Nat := Nat.log2 c.capacity

/-- `CNT_W` (10_state.md R21). -/
def cntW (c : Config) : Nat := c.ptrW + 1

/-- The implementation can build the rounded capacity (00_scope.md R10, D16). -/
def buildable (c : Config) : Option Nat → Bool
  | none       => true
  | some bound => decide (c.ptrW ≤ bound)

/-- `USABLE` (40_construction.md R105). -/
def usable (c : Config) : Nat :=
  match c.mode with
  | .twoCursor    => c.capacity - 1
  | .countTracked => c.capacity

/-- `MODE` as the configuration name writes it (00_scope.md R2). -/
def modeName (c : Config) : String :=
  match c.mode with
  | .twoCursor    => "TWO_CURSOR"
  | .countTracked => "COUNT_TRACKED"

/-- The configuration's name, `SyncFIFO-<MODE>-N<REQ_CAPACITY>-W<DATA_W>` with `-OVW` when HAS_OVERWRITE = 1
(00_scope.md R2). -/
def name (c : Config) : String :=
  "SyncFIFO-" ++ c.modeName ++ "-N" ++ toString c.reqCapacity ++ "-W" ++ toString c.dataW ++
    (if c.hasOverwrite then "-OVW" else "")

end Config

/-- `x & mask` for an integer `x`, the two's-complement AND (00_scope.md R12): for a negative `x = -(n + 1)` the low bits
are those of `n`, inverted. -/
def andMask (x : Int) (mask : Nat) : Nat :=
  match x with
  | .ofNat n   => n &&& mask
  | .negSucc n => mask ^^^ (n &&& mask)

/-- A cursor advanced by `n` slots: `(x + n) & MASK` (44_cycle.md R175; 40_construction.md R107). -/
def Config.advance (c : Config) (x n : Nat) : Nat := (x + n) &&& c.mask

/-- `(a - b) & MASK` (00_scope.md R12; 40_construction.md R107). -/
def Config.distance (c : Config) (a b : Nat) : Nat := andMask ((a : Int) - (b : Int)) c.mask

end Sys2Proof
end

