-- ==== Sys2Proof/Machine/Flags.lean ====
section
/-! DEFINITION. The full/empty flag logic, the element count, liveness, and the response codes
(43_status.md; 10_state.md R28, R29; 30_encoding.md R81). -/

namespace Sys2Proof.Machine

/-- `len(s)`, the number of live elements (10_state.md R28; 43_status.md R152). -/
def State.len (s : State) : Nat :=
  match s.cfg.mode with
  | .twoCursor    => s.cfg.distance s.writeIndex s.readIndex
  | .countTracked => s.countReg

/-- `empty(s)` (43_status.md R150; 90_conflicts.md C2). -/
def State.isEmpty (s : State) : Bool :=
  match s.cfg.mode with
  | .twoCursor    => s.readIndex == s.writeIndex
  | .countTracked => s.countReg == 0

/-- `full(s)` (43_status.md R151). -/
def State.isFull (s : State) : Bool :=
  match s.cfg.mode with
  | .twoCursor    => s.cfg.advance s.writeIndex 1 == s.readIndex
  | .countTracked => s.countReg == s.cfg.capacity

/-- Slot `i` is live: `(i - read_index) & MASK < len(s)`, for a slot index `i` (10_state.md R29). -/
def State.live (s : State) (i : Nat) : Bool :=
  decide (i < s.cfg.capacity) && decide (s.cfg.distance i s.readIndex < s.len)

/-- The output `empty`: IS_EMPTY of the pre-edge state, unspecified before the first reset
(43_status.md R150; 70_reset_and_hazards.md R231, R232). -/
def State.emptyOut (s : State) : Bool :=
  if s.resetSeen then s.isEmpty else Config.freeValue .empty 1 s.draws == 1#1

/-- The output `full` (43_status.md R151; 70_reset_and_hazards.md R231, R232). -/
def State.fullOut (s : State) : Bool :=
  if s.resetSeen then s.isFull else Config.freeValue .full 1 s.draws == 1#1

/-- The output `count`, `len(s)` zero-extended to CNT_W bits (43_status.md R152; 70_reset_and_hazards.md R231, R232). -/
def State.countOut (s : State) : Nat :=
  if s.resetSeen then s.len else (Config.freeValue .count s.cfg.cntW s.draws).toNat

/-- The 2-bit code of a producer response (30_encoding.md R81). -/
def WrResp.code : WrResp → BitVec 2
  | .idle => 0b00#2
  | .ok   => 0b01#2
  | .full => 0b10#2

/-- The 2-bit code of a consumer response (30_encoding.md R81). -/
def RdResp.code : RdResp → BitVec 2
  | .idle  => 0b00#2
  | .ok    => 0b01#2
  | .empty => 0b10#2

end Sys2Proof.Machine
end

