-- ==== Sys2Proof/Machine/Ops.lean ====
section
/-! DEFINITION. The operations over storage and registers that the meanings share: reading and writing a slot, the two
error responses, the edge of a cycle, and the model-only marks. SyncFIFO takes no exception and returns from none
(60_exceptions.md R206, R207): an error is a response code, and `raiseFull` and `raiseEmpty` are all there is to it. -/

namespace Sys2Proof.Machine

/-- What slot `i` holds (10_state.md R27). -/
def Memory.read : Memory → Nat → Option Elem
  | [],          _ => none
  | (j, v) :: m, i => if j = i then some v else Memory.read m i

/-- The storage with slot `i` holding `v`. -/
def Memory.write : Memory → Nat → Elem → Memory
  | [],          i, v => [(i, v)]
  | (j, u) :: m, i, v =>
    if i < j then (i, v) :: (j, u) :: m
    else if i = j then (i, v) :: m
    else (j, u) :: Memory.write m i v

/-- The storage in which only the slots of which `p` holds keep their value (44_cycle.md R174). -/
def Memory.keep (m : Memory) (p : Nat → Bool) : Memory := m.filter (fun cell => p cell.1)

/-- `MemRead(i, 1)` (00_scope.md R14; 60_exceptions.md R205). -/
def memRead (s : State) (i : Nat) : Except Fault Elem :=
  match s.storage.read i with
  | some v => .ok v
  | none   => .error .slotUnwritten

/-- What a producer command sets in a cycle (41_producer.md). -/
structure ProducerSignals where
  /-- `w_acc`: the command stores `wr_data` -/
  wAcc : Bool
  /-- `drop`: the command discards the oldest element -/
  drop : Bool
  /-- `wr_resp` -/
  resp : WrResp
  deriving DecidableEq, Repr

/-- What a consumer command sets in a cycle (42_consumer.md). -/
structure ConsumerSignals where
  /-- `pop_acc`: the command removes the oldest element -/
  popAcc : Bool
  /-- `rd_resp` -/
  resp   : RdResp
  /-- `rd_data` -/
  data   : Elem
  deriving DecidableEq, Repr

/-- `raise Full` (00_scope.md R15; 60_exceptions.md R201, R206). -/
def raiseFull : ProducerSignals := { wAcc := false, drop := false, resp := .full }

/-- An unspecified `rd_data`: any value of DATA_W bits, drawn per cycle (D12; 44_cycle.md R183; log 4). -/
def State.freeRdData (s : State) : Elem := (Config.freeValue .rdData s.cfg.dataW s.draws).toNat

/-- `raise Empty` (00_scope.md R15; 60_exceptions.md R202, R206). -/
def raiseEmpty (s : State) : ConsumerSignals := { popAcc := false, resp := .empty, data := s.freeRdData }

/-- The outputs of a non-reset cycle (44_cycle.md R172; 43_status.md R154); `d` is the value on `wr_data`. -/
def State.outputs (s : State) (d : Elem) (p : ProducerSignals) (c : ConsumerSignals) : Outputs where
  empty    := s.emptyOut
  full     := s.fullOut
  count    := s.countOut
  wrResp   := p.resp
  rdResp   := c.resp
  rdData   := c.data
  ramWe    := p.wAcc
  ramWaddr := s.writeIndex
  ramWdata := d
  ramRaddr := s.readIndex

/-- The outputs of a RESET cycle (70_reset_and_hazards.md R231). -/
def State.resetOutputs (s : State) (d : Elem) : Outputs where
  empty    := s.emptyOut
  full     := s.fullOut
  count    := s.countOut
  wrResp   := .idle
  rdResp   := .idle
  rdData   := s.freeRdData
  ramWe    := false
  ramWaddr := s.writeIndex
  ramWdata := d
  ramRaddr := s.readIndex

/-- The registers after the edge (44_cycle.md R175, R176). -/
def State.advanceRegs (s : State) (wAcc popAcc drop : Bool) : State :=
  { s with
    writeIndex := s.cfg.advance s.writeIndex wAcc.toNat
    readIndex  := s.cfg.advance s.readIndex (popAcc.toNat + drop.toNat)
    countReg   :=
      match s.cfg.mode with
      | .twoCursor    => s.countReg
      | .countTracked => s.countReg + wAcc.toNat - popAcc.toNat - drop.toNat }

/-- `storage1` of 44_cycle.md R172: the storage with the accepted element in slot `write_index`. -/
def State.stored (s : State) (wAcc : Bool) (d : Elem) : Memory :=
  if wAcc then s.storage.write s.writeIndex d else s.storage

/-- The state after the edge of a non-reset cycle (44_cycle.md R172, R174-R176), with the cycle's outputs recorded. -/
def State.edge (s : State) (d : Elem) (p : ProducerSignals) (c : ConsumerSignals) : State :=
  let t := s.advanceRegs p.wAcc c.popAcc p.drop
  { t with
    storage := (s.stored p.wAcc d).keep t.live
    out     := s.outputs d p c
    draws   := s.draws + 1 }

/-- The state after the edge of a RESET cycle (70_reset_and_hazards.md R230), with the cycle's outputs recorded. -/
def State.resetEdge (s : State) : State :=
  { s with
    readIndex  := 0
    writeIndex := 0
    countReg   := 0
    storage    := []
    resetSeen  := true
    out        := s.resetOutputs s.wrBus
    draws      := s.draws + 1 }

/-- One non-reset cycle (44_cycle.md R172): the consumer's signals, which a fault of `MemRead` may take the place of, and the
producer's signals, which may read `pop_acc`. -/
def runCycle (s : State) (d : Elem) (producer : Bool → ProducerSignals) (consumer : Except Fault ConsumerSignals) :
    Host.Outcome State Fault Refusal :=
  match consumer with
  | .error f => .fault f
  | .ok c    => .next (s.edge d (producer c.popAcc) c)

/-- A non-RESET cycle before the first RESET cycle is refused (70_reset_and_hazards.md R232). -/
def whenReady (s : State) (k : Host.Outcome State Fault Refusal) : Host.Outcome State Fault Refusal :=
  if s.resetSeen then k else .refused .notReset

/-- A code with `CTRL[3] = 1` is refused where HAS_OVERWRITE = 0 (30_encoding.md R77). -/
def whenOverwrite (s : State) (k : Host.Outcome State Fault Refusal) : Host.Outcome State Fault Refusal :=
  if s.cfg.hasOverwrite then k else .refused .overwriteNotConfigured

/-- The state a run is left in: the next state, or the same state with the mark `faulted` or `refused` set
(60_exceptions.md R204, R205; log 7). -/
def State.record (s : State) : Host.Outcome State Fault Refusal → State
  | .next t    => t
  | .fault f   => { s with faulted := some f }
  | .refused r => { s with refused := some r }

end Sys2Proof.Machine
end

