-- ==== Sys2Proof/Machine/Construction.lean ====
section
/-! DEFINITION. NEW: elaboration of an instance from its parameters (40_construction.md), its power-on state, and RESET
(70_reset_and_hazards.md). -/

namespace Sys2Proof.Machine

/-- `MODE` from the value offered, where it is legal (40_construction.md R103). -/
def elaborateMode : ModeParam → Except Refusal Mode
  | .twoCursor    => .ok .twoCursor
  | .countTracked => .ok .countTracked
  | .other _      => .error .invalidConfiguration

/-- `HAS_OVERWRITE` from the value offered, where it is legal (40_construction.md R103). -/
def elaborateOverwrite : Nat → Except Refusal Bool
  | 0 => .ok false
  | 1 => .ok true
  | _ => .error .invalidConfiguration

/-- Elaboration (40_construction.md R101-R103; 60_exceptions.md R203). Where several parameters are illegal the order
is DESIGN CHOICE (log 10). -/
def elaborate (p : NewParams) : Except Refusal Config :=
  if p.reqCapacity = 0 then .error .invalidCapacity
  else if p.dataW = 0 then .error .invalidConfiguration
  else
    match elaborateMode p.mode, elaborateOverwrite p.hasOverwrite with
    | .ok mode, .ok ovw =>
      let c : Config := { reqCapacity := p.reqCapacity, dataW := p.dataW, mode := mode, hasOverwrite := ovw }
      if c.buildable p.maxPtrW then .ok c else .error .capacityAboveMaxPtrW
    | .error r, _ => .error r
    | _, .error r => .error r

/-- The state of an instance at power-on: `reset_seen = 0`, arbitrary register values, no value in any slot
(70_reset_and_hazards.md R232; 10_state.md R27; log 16). The host's side, its inputs (on the new instance's wires) and the outputs
recorded, is that of `s`. -/
def State.powerOn (s : State) (c : Config) : State :=
  { s with
    cfg        := c
    readIndex  := (Config.freeValue .readIndex c.ptrW s.draws).toNat
    writeIndex := (Config.freeValue .writeIndex c.ptrW s.draws).toNat
    countReg   :=
      match c.mode with
      | .twoCursor    => 0
      | .countTracked => (Config.freeValue .countReg c.cntW s.draws).toNat
    storage    := []
    resetSeen  := false
    faulted    := none
    refused    := none
    wrBus      := c.sample s.wrBus
    draws      := s.draws + 1 }

/-- NEW (40_construction.md R101): a new instance at power-on, or the refusal of its parameters (R102, R103; R10). -/
def execNew (params : NewParams) (s : State) : Host.Outcome State Fault Refusal :=
  match elaborate params with
  | .ok c    => .next (s.powerOn c)
  | .error r => .refused r

/-- RESET (70_reset_and_hazards.md R230, R231); never refused (60_exceptions.md R209). -/
def execReset (s : State) : Host.Outcome State Fault Refusal := .next s.resetEdge

end Sys2Proof.Machine
end

