-- ==== Sys2Proof/Machine/Producer.lean ====
section
/-! DEFINITION. The consumer port idle, and the producer commands NOP_P, PUSH, RSV_P and PUSH_OVW (41_producer.md). -/

namespace Sys2Proof.Machine

/-- NOP_P's signals (41_producer.md R110). -/
def nopPSignals : ProducerSignals := { wAcc := false, drop := false, resp := .idle }

/-- PUSH's signals (41_producer.md R111). -/
def pushSignals (s : State) : ProducerSignals :=
  if s.isFull then raiseFull else { wAcc := true, drop := false, resp := .ok }

/-- The signals of the reserved code `P = 10`: those of NOP_P (30_encoding.md R76). -/
def rsvPSignals : ProducerSignals := nopPSignals

/-- PUSH_OVW's signals; it reads the consumer's `pop_acc` (41_producer.md R112; D10). -/
def pushOvwSignals (s : State) (popAcc : Bool) : ProducerSignals :=
  { wAcc := true, drop := s.isFull && !popAcc, resp := .ok }

/-- NOP_C's signals (42_consumer.md R130). -/
def nopCSignals (s : State) : ConsumerSignals := { popAcc := false, resp := .idle, data := s.freeRdData }

/-- NOP_P alone in its cycle (41_producer.md R110). -/
def execNopP (s : State) : Host.Outcome State Fault Refusal :=
  whenReady s (runCycle s s.wrBus (fun _ => nopPSignals) (.ok (nopCSignals s)))

/-- PUSH alone in its cycle (41_producer.md R111). -/
def execPush (wrData : Elem) (s : State) : Host.Outcome State Fault Refusal :=
  whenReady s (runCycle s wrData (fun _ => pushSignals s) (.ok (nopCSignals s)))

/-- RSV_P alone in its cycle (30_encoding.md R76, R77; the order of the refusals is that of 60_exceptions.md R209). -/
def execRsvP (s : State) : Host.Outcome State Fault Refusal :=
  whenReady s (whenOverwrite s (runCycle s s.wrBus (fun _ => rsvPSignals) (.ok (nopCSignals s))))

/-- PUSH_OVW alone in its cycle (41_producer.md R112; 30_encoding.md R77). -/
def execPushOvw (wrData : Elem) (s : State) : Host.Outcome State Fault Refusal :=
  whenReady s (whenOverwrite s (runCycle s wrData (pushOvwSignals s) (.ok (nopCSignals s))))

end Sys2Proof.Machine
end

