-- ==== Sys2Proof/Machine/Consumer.lean ====
section
/-! DEFINITION. The consumer commands NOP_C, POP, RSV_C and PEEK (42_consumer.md). -/

namespace Sys2Proof.Machine

/-- POP's signals (42_consumer.md R131). -/
def popSignals (s : State) : Except Fault ConsumerSignals :=
  if s.isEmpty then .ok (raiseEmpty s)
  else
    match memRead s s.readIndex with
    | .ok v    => .ok { popAcc := true, resp := .ok, data := v }
    | .error f => .error f

/-- The signals of the reserved code `C = 10`: those of NOP_C (30_encoding.md R76). -/
def rsvCSignals (s : State) : ConsumerSignals := nopCSignals s

/-- PEEK's signals (42_consumer.md R132). -/
def peekSignals (s : State) : Except Fault ConsumerSignals :=
  if s.isEmpty then .ok (raiseEmpty s)
  else
    match memRead s s.readIndex with
    | .ok v    => .ok { popAcc := false, resp := .ok, data := v }
    | .error f => .error f

/-- NOP_C alone in its cycle (42_consumer.md R130). -/
def execNopC (s : State) : Host.Outcome State Fault Refusal :=
  whenReady s (runCycle s s.wrBus (fun _ => nopPSignals) (.ok (nopCSignals s)))

/-- POP alone in its cycle (42_consumer.md R131). -/
def execPop (s : State) : Host.Outcome State Fault Refusal :=
  whenReady s (runCycle s s.wrBus (fun _ => nopPSignals) (popSignals s))

/-- RSV_C alone in its cycle (30_encoding.md R76). -/
def execRsvC (s : State) : Host.Outcome State Fault Refusal :=
  whenReady s (runCycle s s.wrBus (fun _ => nopPSignals) (.ok (rsvCSignals s)))

/-- PEEK alone in its cycle (42_consumer.md R132). -/
def execPeek (s : State) : Host.Outcome State Fault Refusal :=
  whenReady s (runCycle s s.wrBus (fun _ => nopPSignals) (peekSignals s))

end Sys2Proof.Machine
end

