-- ==== Sys2Proof/Machine/Status.lean ====
section
/-! DEFINITION. The status outputs IS_EMPTY, IS_FULL and LEN (43_status.md R150-R152). They are driven in every cycle
whatever the control word holds (30_encoding.md R79); on its own each is a read of its output port that changes nothing
else (log 14). -/

namespace Sys2Proof.Machine

/-- IS_EMPTY: the port `empty` shows the current state (43_status.md R150). -/
def execIsEmpty (s : State) : Host.Outcome State Fault Refusal :=
  .next { s with out := { s.out with empty := s.emptyOut } }

/-- IS_FULL: the port `full` shows the current state (43_status.md R151). -/
def execIsFull (s : State) : Host.Outcome State Fault Refusal :=
  .next { s with out := { s.out with full := s.fullOut } }

/-- LEN: the port `count` shows the current state (43_status.md R152). -/
def execLen (s : State) : Host.Outcome State Fault Refusal :=
  .next { s with out := { s.out with count := s.countOut } }

end Sys2Proof.Machine
end

