-- ==== Sys2Proof/Machine/Dispatch.lean ====
section
/-! DEFINITION. The dispatch: one arm per constructor of Instr. -/

namespace Sys2Proof.Machine

-- An instruction on its own: the cycle in which it is the only command driven (log 13).
def exec (i : Instr) (s : State) : Host.Outcome State Fault Refusal :=
  match i with
  | .nopP => Sys2Proof.Machine.execNopP s
  | .push wrData => Sys2Proof.Machine.execPush wrData s
  | .rsvP => Sys2Proof.Machine.execRsvP s
  | .pushOvw wrData => Sys2Proof.Machine.execPushOvw wrData s
  | .nopC => Sys2Proof.Machine.execNopC s
  | .pop => Sys2Proof.Machine.execPop s
  | .rsvC => Sys2Proof.Machine.execRsvC s
  | .peek => Sys2Proof.Machine.execPeek s
  | .reset => Sys2Proof.Machine.execReset s
  | .isEmpty => Sys2Proof.Machine.execIsEmpty s
  | .isFull => Sys2Proof.Machine.execIsFull s
  | .len => Sys2Proof.Machine.execLen s
  | .new params => Sys2Proof.Machine.execNew params s

end Sys2Proof.Machine
end

