-- ==== Sys2Proof/Machine/Cycle.lean ====
section
/-! DEFINITION. One clock cycle: taking the host's inputs, decoding the control word, and running both port commands
together (44_cycle.md R170-R172; 60_exceptions.md R209). -/

namespace Sys2Proof.Machine

/-- The producer port's signals (44_cycle.md R172). -/
def producerSignals (p : ProducerCmd) (s : State) (popAcc : Bool) : ProducerSignals :=
  match p with
  | .nopP      => nopPSignals
  | .push _    => pushSignals s
  | .rsvP      => rsvPSignals
  | .pushOvw _ => pushOvwSignals s popAcc

/-- The consumer port's signals (44_cycle.md R172). -/
def consumerSignals (c : ConsumerCmd) (s : State) : Except Fault ConsumerSignals :=
  match c with
  | .nopC => .ok (nopCSignals s)
  | .pop  => popSignals s
  | .rsvC => .ok (rsvCSignals s)
  | .peek => peekSignals s

/-- Both commands of a cycle against the same pre-edge state (44_cycle.md R171, R172). -/
def runPair (p : ProducerCmd) (c : ConsumerCmd) (s : State) : Host.Outcome State Fault Refusal :=
  runCycle s (p.data s.wrBus) (producerSignals p s) (consumerSignals c s)

/-- The cycle of a control word, in the order of 60_exceptions.md R209: RESET, NotReset, OverwriteNotConfigured, the two
commands. -/
def runInput (w : Input) (s : State) : Host.Outcome State Fault Refusal :=
  match decode s.cfg w with
  | .ok .reset                      => exec .reset s
  | .ok (.cycle p c)                => whenReady s (runPair p c s)
  | .error .overwriteNotConfigured  => whenReady s (.refused .overwriteNotConfigured)

/-- The inputs of one cycle taken: the rest of the sequence left, `wr_data` on its port. -/
def State.takeInput (s : State) (w : Input) (rest : List Input) : State :=
  { s with inputs := rest, wrBus := s.cfg.sample w.wrData }

/-- One step: a marked run takes no further step (60_exceptions.md R204, R205); otherwise the next cycle of the host's
sequence runs (44_cycle.md R170); a sequence that has ended has no next cycle (log 3). -/
def takeStep (s : State) : Host.Outcome State Fault Refusal :=
  match s.faulted, s.refused, s.inputs with
  | some f, _, _            => .fault f
  | none, some r, _         => .refused r
  | none, none, []          => .refused .noControlWord
  | none, none, w :: rest   => runInput w (s.takeInput w rest)

/-- A word numbered as the opcode table numbers it, driven in the next cycle, before what the host drives after it. -/
def State.driveWord (s : State) (nbits w : Nat) : State :=
  { s with inputs := inputOfWord nbits w :: s.inputs }

/-- `n` steps that record the outcome as the marks of the state (60_exceptions.md R204, R205; log 7). -/
def runMarked : Nat → State → State
  | 0,     s => s
  | n + 1, s => runMarked n (s.record (takeStep s))

end Sys2Proof.Machine
end

