-- ==== Sys2Proof/Machine/Step.lean ====
section
/-! DEFINITION. The step: one cycle of `clk`, ended by its rising edge (44_cycle.md R170). -/

namespace Sys2Proof.Machine

/-- One step of the machine. -/
def step (s : State) : Host.Outcome State Fault Refusal := takeStep s

/-- `s` with the instruction of a table word driven in the next cycle (log 9, log 18). -/
def State.withFetchWord (s : State) (nbits w : Nat) : State := s.driveWord nbits w

end Sys2Proof.Machine
end

