-- ==== Sys2Proof/Machine/Assembler.lean ====
section
/-! DEFINITION. The assembler: its lines and pseudo-instructions, what each assembles to, and the reading of a line of text
(30_encoding.md R82-R84). -/

namespace Sys2Proof

/-- `pcmd` of 30_encoding.md R82. -/
inductive AsmProducer where
  | nop
  | push (value : Nat)
  | pushOvw (value : Nat)
  deriving DecidableEq, Repr

/-- `ccmd` of 30_encoding.md R82. -/
inductive AsmConsumer where
  | nop
  | pop
  | peek
  deriving DecidableEq, Repr

/-- A line: one clock cycle (30_encoding.md R82). A line with one command only has the other port's NOP. -/
inductive AsmLine where
  | reset
  | cycle (p : AsmProducer) (c : AsmConsumer)
  deriving DecidableEq, Repr

/-- The pseudo-instructions of 30_encoding.md R83. -/
inductive Pseudo where
  | idle
  | xfer (value : Nat)
  | xferp (value : Nat)
  | xfero (value : Nat)
  | fill (values : List Nat)
  | drain (n : Nat)
  deriving DecidableEq, Repr

/-- What a pseudo-instruction expands to (30_encoding.md R83). -/
def Pseudo.expand : Pseudo → List AsmLine
  | .idle    => [.cycle .nop .nop]
  | .xfer v  => [.cycle (.push v) .pop]
  | .xferp v => [.cycle (.push v) .peek]
  | .xfero v => [.cycle (.pushOvw v) .pop]
  | .fill vs => vs.map (fun v => .cycle (.push v) .nop)
  | .drain n => List.replicate n (.cycle .nop .pop)

/-- The command a producer part stands for; none where the value is wider than DATA_W bits (30_encoding.md R82), or
where the configuration has no PUSH_OVW (log 17). -/
def AsmProducer.command (c : Config) : AsmProducer → Option ProducerCmd
  | .nop       => some .nopP
  | .push v    => if Elem.fits c.dataW v then some (.push v) else none
  | .pushOvw v => if c.hasOverwrite && Elem.fits c.dataW v then some (.pushOvw v) else none

/-- The command a consumer part stands for. -/
def AsmConsumer.command : AsmConsumer → ConsumerCmd
  | .nop  => .nopC
  | .pop  => .pop
  | .peek => .peek

/-- What a line assembles to, `(CTRL, wr_data)`; none where the assembler refuses the line (30_encoding.md R84). -/
def AsmLine.assemble (c : Config) : AsmLine → Option Input
  | .reset      => some (encodeCycle .reset)
  | .cycle p cc => (p.command c).map (fun cmd => encodeCycle (.cycle cmd cc.command))

/-- A program: one cycle per line, from cycle 0 (30_encoding.md R82). -/
def assemble (c : Config) (lines : List AsmLine) : Option (List Input) := lines.mapM (fun l => l.assemble c)

/-- The text before a comment (30_encoding.md R82). -/
def stripComment (line : List Char) : List Char := line.takeWhile (· != ';')

/-- The tokens of a line: words, with `|` and `,` tokens of their own; `word` is the word being read, reversed. -/
def tokensFrom : List Char → (word : List Char) → List (List Char)
  | [],      w => if w.isEmpty then [] else [w.reverse]
  | ch :: t, w =>
    let before := if w.isEmpty then [] else [w.reverse]
    if ch == ' ' || ch == '\t' then before ++ tokensFrom t []
    else if ch == '|' || ch == ',' then before ++ [ch] :: tokensFrom t []
    else tokensFrom t (ch :: w)

/-- The value of a digit in base 16. -/
def digitValue (ch : Char) : Option Nat :=
  let n := ch.toNat
  if 48 ≤ n && n ≤ 57 then some (n - 48)
  else if 65 ≤ n && n ≤ 70 then some (n - 55)
  else if 97 ≤ n && n ≤ 102 then some (n - 87)
  else none

/-- The number a list of digits denotes in a base, read on from `acc`. -/
def digitsFrom (base : Nat) : List Char → (acc : Nat) → Option Nat
  | [],      acc => some acc
  | ch :: t, acc =>
    match digitValue ch with
    | some d => if d < base then digitsFrom base t (acc * base + d) else none
    | none   => none

/-- `value := decimal | "0x" hex` (30_encoding.md R82). -/
def parseValue : List Char → Option Nat
  | []                   => none
  | '0' :: 'x' :: h :: t => digitsFrom 16 (h :: t) 0
  | ds                   => digitsFrom 10 ds 0

/-- The values of FILL, separated by commas. -/
def parseValues : List (List Char) → Option (List Nat)
  | []             => none
  | [v]            => (parseValue v).map ([·])
  | v :: [','] :: t => do
    let x ← parseValue v
    let xs ← parseValues t
    return x :: xs
  | _ :: _ :: _    => none

/-- `pcmd` (30_encoding.md R82). -/
def parseProducer : List (List Char) → Option AsmProducer
  | [w] => if w = ['N', 'O', 'P'] then some .nop else none
  | [w, v] =>
    if w = ['P', 'U', 'S', 'H'] then (parseValue v).map .push
    else if w = ['P', 'U', 'S', 'H', '_', 'O', 'V', 'W'] then (parseValue v).map .pushOvw
    else none
  | _ => none

/-- `ccmd` (30_encoding.md R82). -/
def parseConsumer : List (List Char) → Option AsmConsumer
  | [w] =>
    if w = ['N', 'O', 'P'] then some .nop
    else if w = ['P', 'O', 'P'] then some .pop
    else if w = ['P', 'E', 'E', 'K'] then some .peek
    else none
  | _ => none

/-- A pseudo-instruction (30_encoding.md R83). The spec gives no syntax and no range for the count of DRAIN. DESIGN CHOICE, safe
(log 17): it is read as a `value` of R82, decimal or 0x, is not bounded by DATA_W, and may be 0, which is no cycle. -/
def parsePseudo : List (List Char) → Option Pseudo
  | [] => none
  | w :: t =>
    if w = ['I', 'D', 'L', 'E'] then (if t.isEmpty then some .idle else none)
    else if w = ['F', 'I', 'L', 'L'] then (parseValues t).map .fill
    else
      match t with
      | [v] =>
        if w = ['X', 'F', 'E', 'R'] then (parseValue v).map .xfer
        else if w = ['X', 'F', 'E', 'R', 'P'] then (parseValue v).map .xferp
        else if w = ['X', 'F', 'E', 'R', 'O'] then (parseValue v).map .xfero
        else if w = ['D', 'R', 'A', 'I', 'N'] then (parseValue v).map .drain
        else none
      | _ => none

/-- The lines a line of text stands for; a line with no token stands for none (log 17). -/
def parseLine (text : List Char) : Option (List AsmLine) :=
  let toks := tokensFrom (stripComment text) []
  if toks.isEmpty then some []
  else if toks = [['R', 'E', 'S', 'E', 'T']] then some [.reset]
  else
    let left  := toks.takeWhile (· != ['|'])
    let right := toks.dropWhile (· != ['|'])
    match right with
    | _ :: t =>
      match parseProducer left, parseConsumer t with
      | some p, some c => some [.cycle p c]
      | _, _           => none
    | [] =>
      match parseProducer left, parseConsumer left, parsePseudo left with
      | some p, _, _            => some [.cycle p .nop]
      | none, some c, _         => some [.cycle .nop c]
      | none, none, some pseudo => some pseudo.expand
      | none, none, none        => none

/-- A program text, line by line (30_encoding.md R82). -/
def assembleText (c : Config) (text : List (List Char)) : Option (List Input) := do
  let lines ← text.mapM parseLine
  assemble c lines.flatten

end Sys2Proof
end

