-- ==== Sys2Proof/Safety.lean ====
section
/-! DEFINITION. The words claims are made in: the invariant of the state (10_state.md R30, R31), the elements held, the
source's single-threaded ring buffer (44_cycle.md R178), the record of a run (44_cycle.md R182), and a safe run. -/

namespace Sys2Proof

/-- The command is PUSH. -/
def ProducerCmd.isPush : ProducerCmd → Bool
  | .nopP      => false
  | .push _    => true
  | .rsvP      => false
  | .pushOvw _ => false

namespace Machine

/-- The registers agree and a slot holds a value iff it is live: 10_state.md R30 and R31. -/
abbrev State.consistent (s : State) : Prop :=
  (s.cfg.mode = .countTracked → s.writeIndex = s.cfg.advance s.readIndex s.countReg) ∧
  s.len ≤ s.cfg.usable ∧
  ∀ i < s.cfg.capacity, (s.storage.read i).isSome = s.live i

/-- The invariant: a legal configuration, registers and ports within their widths (10_state.md R22-R24), the storage in
canonical form over the slots with elements of DATA_W bits (R26), and, once reset, R30 and R31. -/
abbrev State.inv (s : State) : Prop :=
  s.cfg.legal ∧
  s.readIndex < s.cfg.capacity ∧
  s.writeIndex < s.cfg.capacity ∧
  (s.cfg.mode = .twoCursor → s.countReg = 0) ∧
  (s.cfg.mode = .countTracked → s.countReg < 2 ^ s.cfg.cntW) ∧
  s.storage.wf ∧
  (∀ cell ∈ s.storage, cell.1 < s.cfg.capacity ∧ cell.2 < 2 ^ s.cfg.dataW) ∧
  s.wrBus < 2 ^ s.cfg.dataW ∧
  (s.resetSeen = true → s.consistent)

/-- The run is neither faulted nor refused (60_exceptions.md R204, R205). -/
abbrev State.running (s : State) : Prop := s.faulted = none ∧ s.refused = none

/-- The run goes on and the host drives `w` in the next cycle, and `rest` after it. -/
abbrev State.drives (s : State) (w : Input) (rest : List Input) : Prop := s.running ∧ s.inputs = w :: rest

/-- `empty(s)` as 43_status.md R150 gives it. -/
def State.emptyByRule (s : State) : Bool :=
  match s.cfg.mode with
  | .twoCursor    => decide (s.readIndex = s.writeIndex)
  | .countTracked => decide (s.countReg = 0)

/-- `full(s)` as 43_status.md R151 gives it, the mask taken as a remainder (00_scope.md R12). -/
def State.fullByRule (s : State) : Bool :=
  match s.cfg.mode with
  | .twoCursor    => decide ((s.writeIndex + 1) % s.cfg.capacity = s.readIndex)
  | .countTracked => decide (s.countReg = s.cfg.capacity)

/-- `len(s)` as 43_status.md R152 gives it, the mask taken as a remainder (00_scope.md R12). -/
def State.lenByRule (s : State) : Nat :=
  match s.cfg.mode with
  | .twoCursor    => (((s.writeIndex : Int) - (s.readIndex : Int)) % (s.cfg.capacity : Int)).toNat
  | .countTracked => s.countReg

/-- `count_reg` after a cycle that adds `up` and takes away `down` elements (44_cycle.md R176); it is no register, and stays,
under TWO_CURSOR. -/
def State.countAfter (s : State) (up down : Nat) : Nat :=
  match s.cfg.mode with
  | .twoCursor    => s.countReg
  | .countTracked => s.countReg + up - down

/-- The live elements, oldest first (10_state.md R29). -/
def State.contents (s : State) : List Elem :=
  (List.range s.len).filterMap (fun k => s.storage.read (s.cfg.advance s.readIndex k))

/-- The state without the model's own fields and the marks: what 10_state.md R20 and R35 give the hardware. -/
structure Arch where
  cfg        : Config
  readIndex  : Nat
  writeIndex : Nat
  countReg   : Nat
  storage    : Memory
  resetSeen  : Bool
  deriving DecidableEq, Repr

/-- The hardware's part of a state. -/
def State.arch (s : State) : Arch where
  cfg        := s.cfg
  readIndex  := s.readIndex
  writeIndex := s.writeIndex
  countReg   := s.countReg
  storage    := s.storage
  resetSeen  := s.resetSeen

/-- What a host may rely on in two records of a cycle being equal: every output but `rd_data` where `rd_resp` is not OK
(70_reset_and_hazards.md R238). -/
abbrev Outputs.agree (a b : Outputs) : Prop :=
  a.empty = b.empty ∧ a.full = b.full ∧ a.count = b.count ∧ a.wrResp = b.wrResp ∧ a.rdResp = b.rdResp ∧
  a.ramWe = b.ramWe ∧ a.ramWaddr = b.ramWaddr ∧ a.ramWdata = b.ramWdata ∧ a.ramRaddr = b.ramRaddr ∧
  (a.rdResp = .ok → a.rdData = b.rdData)

/-- The source's ring buffer, one operation after another, over the list of its elements: a producer command. -/
def ringProducer (usable : Nat) (p : ProducerCmd) (q : List Elem) : WrResp × List Elem :=
  match p with
  | .nopP      => (.idle, q)
  | .push d    => if q.length = usable then (.full, q) else (.ok, q ++ [d])
  | .rsvP      => (.idle, q)
  | .pushOvw d => (.ok, if q.length = usable then (q ++ [d]).tail else q ++ [d])

/-- A consumer command on the source's ring buffer, with the element it returns. -/
def ringConsumer (c : ConsumerCmd) (q : List Elem) : RdResp × Option Elem × List Elem :=
  match c, q with
  | .nopC, q      => (.idle, none, q)
  | .pop, []      => (.empty, none, [])
  | .pop, d :: q  => (.ok, some d, q)
  | .rsvC, q      => (.idle, none, q)
  | .peek, []     => (.empty, none, [])
  | .peek, d :: q => (.ok, some d, d :: q)

/-- A cycle on the source's ring buffer, in the order of 44_cycle.md R178: the consumer's command, then the producer's,
except that a PUSH on a full buffer goes first. -/
def ringCycle (usable : Nat) (p : ProducerCmd) (c : ConsumerCmd) (q : List Elem) :
    WrResp × RdResp × Option Elem × List Elem :=
  if p.isPush && q.length == usable then
    let (w, q1) := ringProducer usable p q
    let (r, d, q2) := ringConsumer c q1
    (w, r, d, q2)
  else
    let (r, d, q1) := ringConsumer c q
    let (w, q2) := ringProducer usable p q1
    (w, r, d, q2)

/-- What left and entered the buffer during a run (44_cycle.md R182): the elements accepted, in order; the elements
accepted POPs returned, in order; and how many were dropped. -/
structure FifoLog where
  written : List Elem
  popped  : List Elem
  dropped : Nat
  deriving DecidableEq, Repr

/-- One record after another. -/
def FifoLog.append (a b : FifoLog) : FifoLog where
  written := a.written ++ b.written
  popped  := a.popped ++ b.popped
  dropped := a.dropped + b.dropped

/-- The record of the non-reset cycle that takes `s` to `t` on the input `w`, read from the cycle's outputs; a drop is a
PUSH_OVW on a full buffer with no accepted POP (44_cycle.md R177). -/
def cycleLog (w : Input) (s t : State) : FifoLog where
  written := if t.out.ramWe then [t.out.ramWdata] else []
  popped  := if w.ctrl.consumerField = 0b01#2 ∧ t.out.rdResp = .ok then [t.out.rdData] else []
  dropped :=
    if w.ctrl.producerField = 0b11#2 ∧ s.isFull = true ∧ ¬ (w.ctrl.consumerField = 0b01#2 ∧ t.out.rdResp = .ok)
    then 1 else 0

/-- The record of `n` steps and the state they lead to; none where one of them does not answer a next state. -/
def fifoLog : Nat → State → Option (FifoLog × State)
  | 0,     s => some ({ written := [], popped := [], dropped := 0 }, s)
  | n + 1, s =>
    match s.inputs, step s with
    | w :: _, .next t => (fifoLog n t).map (fun r => ((cycleLog w s t).append r.1, r.2))
    | _, _            => none

/-- A safe run: however many steps are taken, none faults. -/
def State.safe (s : State) : Prop := ∀ n f, Sys2Proof.core.run n s ≠ .fault f

end Machine

end Sys2Proof
end

