-- ==== Sys2Proof/Certificates/Slice0/Obligations.lean ====
section
/-! DEFINITION. The statements about SyncFIFO. Each docstring names the rule of spec/ it formalises; where a clause is the
model's own choice it names the log entry. -/

open Sys2Proof Sys2Proof.Machine

/-! ## Construction -/

/-- 40_construction.md R100. -/
def Obligations.RoundUpIsLeastPowerOfTwo : Prop :=
  (∀ n : Nat, 1 ≤ n → ∃ k, roundUpToPow2 n = 2 ^ k ∧ n ≤ 2 ^ k ∧ ∀ j, n ≤ 2 ^ j → 2 ^ k ≤ 2 ^ j) ∧
  (∀ k : Nat, roundUpToPow2 (2 ^ k) = 2 ^ k)

/-- 00_scope.md R12. -/
def Obligations.MaskingIsRemainder : Prop :=
  ∀ c : Config,
    (∃ k, c.capacity = 2 ^ k) ∧ c.mask = c.capacity - 1 ∧
    (∀ x : Nat, x &&& c.mask = x % c.capacity ∧ andMask (x : Int) c.mask = x % c.capacity) ∧
    (∀ a b : Nat, a < c.capacity → b < c.capacity →
      ((andMask ((a : Int) - (b : Int)) c.mask : Nat) : Int) = ((a : Int) - (b : Int)) % (c.capacity : Int) ∧
      andMask ((a : Int) - (b : Int)) c.mask < c.capacity)

/-- 10_state.md R21. -/
def Obligations.DerivedConstants : Prop :=
  ∀ c : Config, c.legal →
    c.capacity = roundUpToPow2 c.reqCapacity ∧ c.capacity = 2 ^ c.ptrW ∧ 1 ≤ c.capacity ∧
    c.mask = c.capacity - 1 ∧ (∀ i, c.mask.testBit i = decide (i < c.ptrW)) ∧ c.cntW = c.ptrW + 1

/-- 40_construction.md R101, 70_reset_and_hazards.md R232. The model's own: that NEW is an instruction which gives an instance
at power-on, with no mark set, is log 12 (DESIGN CHOICE), the bound MAX_PTR_W as its argument is log 11 (DESIGN CHOICE), that
no slot holds a value at power-on is log 15 and log 16 (DEDUCED; 10_state.md R34 gives it for the reset state), and that the
cursors are slot indices there is log 16 (DEDUCED). -/
def Obligations.NewBuildsPowerOnInstance : Prop :=
  ∀ (p : NewParams) (s : State), p.wf = true →
    (∀ bound, p.maxPtrW = some bound → roundUpToPow2 p.reqCapacity ≤ 2 ^ bound) →
    ∃ t, exec (.new p) s = .next t ∧
      t.cfg.reqCapacity = p.reqCapacity ∧ t.cfg.dataW = p.dataW ∧
      (p.mode = .twoCursor → t.cfg.mode = .twoCursor) ∧ (p.mode = .countTracked → t.cfg.mode = .countTracked) ∧
      t.cfg.hasOverwrite = decide (p.hasOverwrite = 1) ∧
      t.cfg.capacity = roundUpToPow2 p.reqCapacity ∧
      t.readIndex < t.cfg.capacity ∧ t.writeIndex < t.cfg.capacity ∧ (∀ i, t.storage.read i = none) ∧
      t.resetSeen = false ∧ t.running

/-- 40_construction.md R102. Where another parameter is illegal too, R103 applies as well, and that InvalidCapacity goes first
is the model's choice (log 10). -/
def Obligations.NewRefusesZeroCapacity : Prop :=
  ∀ (p : NewParams) (s : State), p.reqCapacity = 0 → exec (.new p) s = .refused .invalidCapacity

/-- 40_construction.md R103, for a capacity request that is legal (which refusal stands where both are illegal is the
model's choice, log 10). -/
def Obligations.NewRefusesIllegalParameters : Prop :=
  ∀ (p : NewParams) (s : State), 1 ≤ p.reqCapacity →
    (p.dataW = 0 ∨ (p.mode ≠ .twoCursor ∧ p.mode ≠ .countTracked) ∨ 2 ≤ p.hasOverwrite) →
    exec (.new p) s = .refused .invalidConfiguration

/-- 00_scope.md R10 with D16: an implementation refuses a capacity it cannot build. The refusal's name is the model's
(log 11). -/
def Obligations.NewRefusesUnbuildableCapacity : Prop :=
  ∀ (p : NewParams) (s : State) (bound : Nat), p.wf = true → p.maxPtrW = some bound →
    2 ^ bound < roundUpToPow2 p.reqCapacity → exec (.new p) s = .refused .capacityAboveMaxPtrW

/-! ## Encoding -/

/-- 30_encoding.md R71, R72, R74. The model's own: a reserved code decodes to a row of its own, whose signals are those of the
port's NOP, where R74 decodes it to the NOP itself (log 13, DEDUCED); and the element of a push is what DATA_W wires carry of
the number the host is said to drive (log 2, DEDUCED). -/
def Obligations.DecodeFollowsTheFields : Prop :=
  (∀ (c : Config) (w : Input),
    (w.ctrl.getLsbD 4 = true → decode c w = .ok .reset) ∧
    (w.ctrl.getLsbD 4 = false → c.hasOverwrite = false → w.ctrl.getLsbD 3 = true →
      decode c w = .error .overwriteNotConfigured) ∧
    (w.ctrl.getLsbD 4 = false → (c.hasOverwrite = true ∨ w.ctrl.getLsbD 3 = false) →
      decode c w = .ok (.cycle
        (match w.ctrl.getLsbD 3, w.ctrl.getLsbD 2 with
          | false, false => .nopP
          | false, true  => .push (w.wrData % 2 ^ c.dataW)
          | true,  false => .rsvP
          | true,  true  => .pushOvw (w.wrData % 2 ^ c.dataW))
        (match w.ctrl.getLsbD 1, w.ctrl.getLsbD 0 with
          | false, false => .nopC
          | false, true  => .pop
          | true,  false => .rsvC
          | true,  true  => .peek)))) ∧
  (∀ (s : State) (x : Bool), producerSignals .rsvP s x = producerSignals .nopP s x) ∧
  (∀ s : State, consumerSignals .rsvC s = consumerSignals .nopC s)

/-- 30_encoding.md R70, R74, R84: no bit of a cycle's encoding is dropped. For the reserved rows RSV_P and RSV_C the round trip
is the model's own, since R74 decodes their codes to the NOPs (log 13, DEDUCED). -/
def Obligations.EncodedCycleDecodesToItself : Prop :=
  ∀ (c : Config) (dec : Decoded), (∀ p k, dec = .cycle p k → p.instr.wf c = true) →
    decode c (encodeCycle dec) = .ok dec

/-- 30_encoding.md R70-R75: a control word that spells two commands is the encoding of those two. For a word with a reserved
code this is the model's own, since by R74 it spells a NOP, whose code is 00 (log 13, DEDUCED); so is that the element is what
DATA_W wires carry (log 2, DEDUCED). -/
def Obligations.DecodedWordEncodesToItself : Prop :=
  ∀ (c : Config) (w : Input) (p : ProducerCmd) (k : ConsumerCmd), decode c w = .ok (.cycle p k) →
    (encodeCycle (.cycle p k)).ctrl = w.ctrl ∧
    (∀ d, p = .push d ∨ p = .pushOvw d → d = w.wrData % 2 ^ c.dataW ∧ (encodeCycle (.cycle p k)).wrData = d) ∧
    p.instr.wf c = true

/-- 30_encoding.md R79, R80, R84: the word of every well-formed instruction decodes to the cycle that carries it alone; the
status rows and NEW have no word. The model's own: the cycle that carries an instruction alone, and that the words of RSV_P and
RSV_C decode to rows of their own and not to the NOPs of R74 (log 13, DEDUCED). -/
def Obligations.EveryInstructionWordDecodesToIt : Prop :=
  ∀ (c : Config) (i : Instr), i.wf c = true →
    (∀ w, encode i = some w → ∃ dec, i.alone = some dec ∧ decode c w = .ok dec) ∧
    (encode i = none ↔ i.mnemonic ∈ ["IS_EMPTY", "IS_FULL", "LEN", "NEW"])

/-- Words written out from the table of 30_encoding.md R70-R73. The model's own: the layout as one number and which row is
named (log 9, DESIGN CHOICE), that they are decoded with HAS_OVERWRITE = 1, as `State.reset` has it, without which RSV_P and
PUSH_OVW are refused (log 1, DESIGN CHOICE), and that a reserved code names its own row (log 13, DEDUCED). -/
def Obligations.SpecWordsDecode : Prop :=
  decodeTableWord 8 0b00000 = some .nopP ∧ decodeTableWord 16 (0x2A * 256 + 0b00100) = some (.push 0x2A) ∧
  decodeTableWord 8 0b01000 = some .rsvP ∧ decodeTableWord 16 (0xFF * 256 + 0b01100) = some (.pushOvw 0xFF) ∧
  decodeTableWord 8 0b00001 = some .pop ∧ decodeTableWord 8 0b00010 = some .rsvC ∧
  decodeTableWord 8 0b00011 = some .peek ∧ decodeTableWord 8 0b10000 = some .reset ∧
  decodeTableWord 8 0b11111 = some .reset

/-- The opcode table: a control word with `CTRL[4] = 0` selects exactly one producer row and one consumer row, those of the
commands it decodes to, and the status rows; one with `CTRL[4] = 1` selects the RESET row and no port's row. The model's own:
the decoding is that of `Config.resetInstance`, with HAS_OVERWRITE = 1, without which half the words are refused (log 1, DESIGN
CHOICE), and a reserved code decodes to its own row (log 13, DEDUCED). -/
def Obligations.OpcodeRowsUnambiguous : Prop :=
  ∀ w : Ctrl,
    statusRows.filter (·.selects w) = statusRows ∧
    (w.rst = true → resetRow.selects w = true ∧ (producerRows ++ consumerRows).filter (·.selects w) = []) ∧
    (w.rst = false → resetRow.selects w = false ∧
      ∃ p k, decode Config.resetInstance { ctrl := w, wrData := 0 } = .ok (.cycle p k) ∧
        (producerRows.filter (·.selects w)).map (·.mnemonic) = [p.instr.mnemonic] ∧
        (consumerRows.filter (·.selects w)).map (·.mnemonic) = [k.instr.mnemonic])

/-- 30_encoding.md R81. -/
def Obligations.ResponseCodes : Prop :=
  WrResp.idle.code = 0b00#2 ∧ WrResp.ok.code = 0b01#2 ∧ WrResp.full.code = 0b10#2 ∧
  RdResp.idle.code = 0b00#2 ∧ RdResp.ok.code = 0b01#2 ∧ RdResp.empty.code = 0b10#2 ∧
  (∀ r : WrResp, r.code ≠ 0b11#2) ∧ (∀ r : RdResp, r.code ≠ 0b11#2)

/-- 30_encoding.md R82, R84. That PUSH_OVW assembles only with HAS_OVERWRITE = 1 is log 17. -/
def Obligations.AssembledLineDecodesToItsCommands : Prop :=
  ∀ c : Config,
    (∀ (l : AsmLine) (w : Input), l.assemble c = some w → w.wrData < 2 ^ c.dataW ∧
      ((l = .reset ∧ w.ctrl = 0b10000#5 ∧ w.wrData = 0 ∧ decode c w = .ok .reset) ∨
       (∃ p k cmd, l = .cycle p k ∧ p.command c = some cmd ∧ decode c w = .ok (.cycle cmd k.command) ∧
          w.ctrl.producerField ≠ 0b10#2 ∧ w.ctrl.consumerField ≠ 0b10#2 ∧
          (p = .nop → cmd = .nopP ∧ w.wrData = 0) ∧
          (∀ v, p = .push v → cmd = .push v ∧ w.wrData = v) ∧
          (∀ v, p = .pushOvw v → cmd = .pushOvw v ∧ w.wrData = v)))) ∧
    (∀ (v : Nat) (k : AsmConsumer),
      ((AsmLine.cycle (.push v) k).assemble c = none ↔ 2 ^ c.dataW ≤ v) ∧
      ((AsmLine.cycle (.pushOvw v) k).assemble c = none ↔ 2 ^ c.dataW ≤ v ∨ c.hasOverwrite = false))

/-- 30_encoding.md R83: the control words of the pseudo-instructions' expansions. -/
def Obligations.PseudoInstructionExpansions : Prop :=
  ∀ (c : Config) (v : Nat), v < 2 ^ c.dataW →
    assemble c Pseudo.idle.expand = some [{ ctrl := 0b00000#5, wrData := 0 }] ∧
    assemble c (Pseudo.xfer v).expand = some [{ ctrl := 0b00101#5, wrData := v }] ∧
    assemble c (Pseudo.xferp v).expand = some [{ ctrl := 0b00111#5, wrData := v }] ∧
    (c.hasOverwrite = true → assemble c (Pseudo.xfero v).expand = some [{ ctrl := 0b01101#5, wrData := v }]) ∧
    (∀ vs : List Nat, (∀ x ∈ vs, x < 2 ^ c.dataW) →
      assemble c (Pseudo.fill vs).expand = some (vs.map (fun x => { ctrl := 0b00100#5, wrData := x }))) ∧
    (∀ n : Nat, assemble c (Pseudo.drain n).expand = some (List.replicate n { ctrl := 0b00001#5, wrData := 0 }))

/-! ## Status outputs -/

/-- 43_status.md R150, R151, R152; 30_encoding.md R79: in every cycle of a machine that has been reset, whatever the
control word holds. -/
def Obligations.StatusPortsShowPreEdgeState : Prop :=
  ∀ s t : State, s.resetSeen = true → step s = .next t →
    t.out.empty = s.emptyByRule ∧ t.out.full = s.fullByRule ∧ t.out.count = s.lenByRule

/-- 43_status.md R150, R151, R152. That a status row on its own writes the record of its port, and that alone, is the
model's choice (log 14). Before the first reset the value is free. -/
def Obligations.StatusReadsComplete : Prop :=
  ∀ s : State, ∃ e f n,
    exec .isEmpty s = .next { s with out := { s.out with empty := e } } ∧
    exec .isFull s = .next { s with out := { s.out with full := f } } ∧
    exec .len s = .next { s with out := { s.out with count := n } } ∧
    (s.resetSeen = true → e = s.emptyByRule ∧ f = s.fullByRule ∧ n = s.lenByRule)

/-- 43_status.md R153. -/
def Obligations.FlagLaws : Prop :=
  ∀ s : State, s.cfg.legal → s.readIndex < s.cfg.capacity → s.writeIndex < s.cfg.capacity →
    (s.isEmpty = true ↔ s.len = 0) ∧ (s.isFull = true ↔ s.len = s.cfg.usable) ∧
    (s.isEmpty = true ∧ s.isFull = true ↔ s.cfg.mode = .twoCursor ∧ s.cfg.capacity = 1)

/-- 43_status.md R154. -/
def Obligations.RamPortsFollowTheCursors : Prop :=
  ∀ (s t : State) (w : Input) (rest : List Input), s.drives w rest → step s = .next t →
    (t.out.ramWe = true ↔ w.ctrl.rst = false ∧
      ((w.ctrl.producerField = 0b01#2 ∧ s.isFull = false) ∨ w.ctrl.producerField = 0b11#2)) ∧
    t.out.ramWaddr = s.writeIndex ∧ t.out.ramWdata = w.wrData % 2 ^ s.cfg.dataW ∧ t.out.ramRaddr = s.readIndex

/-! ## Producer commands -/

/-- 41_producer.md R110, 42_consumer.md R130, 30_encoding.md R76. -/
def Obligations.NoOperationsLeaveTheState : Prop :=
  ∀ (s : State) (i : Instr), s.inv → s.resetSeen = true →
    (i = .nopP ∨ i = .nopC ∨ i = .rsvC ∨ (i = .rsvP ∧ s.cfg.hasOverwrite = true)) →
    ∃ t, exec i s = .next t ∧ t.arch = s.arch ∧ t.out.wrResp = .idle ∧ t.out.rdResp = .idle ∧ t.out.ramWe = false

/-- 41_producer.md R111. -/
def Obligations.PushStoresOrReportsFull : Prop :=
  ∀ (s : State) (d : Elem), s.inv → s.resetSeen = true →
    ∃ t, exec (.push d) s = .next t ∧
      (s.isFull = true → t.arch = s.arch ∧ t.out.wrResp = .full ∧ t.out.ramWe = false) ∧
      (s.isFull = false →
        t.storage.read s.writeIndex = some d ∧
        (∀ a, a ≠ s.writeIndex → t.storage.read a = s.storage.read a) ∧
        t.writeIndex = (s.writeIndex + 1) % s.cfg.capacity ∧ t.readIndex = s.readIndex ∧
        t.countReg = s.countAfter 1 0 ∧ t.out.wrResp = .ok ∧ t.out.ramWe = true ∧ t.out.ramWdata = d)

/-- 41_producer.md R112, for PUSH_OVW alone in its cycle: its effect not full, full, and on an instance that can hold no
element. -/
def Obligations.PushOvwStoresAndDropsOldest : Prop :=
  ∀ (s : State) (d : Elem), s.inv → s.resetSeen = true → s.cfg.hasOverwrite = true →
    ∃ t, exec (.pushOvw d) s = .next t ∧ t.out.wrResp = .ok ∧ t.out.ramWe = true ∧ t.out.ramWdata = d ∧
      t.writeIndex = (s.writeIndex + 1) % s.cfg.capacity ∧
      t.storage.read s.writeIndex = (if s.cfg.usable = 0 then none else some d) ∧
      (s.isFull = false →
        t.readIndex = s.readIndex ∧ t.countReg = s.countAfter 1 0 ∧
        (∀ a, a ≠ s.writeIndex → t.storage.read a = s.storage.read a)) ∧
      (s.isFull = true →
        t.readIndex = (s.readIndex + 1) % s.cfg.capacity ∧ t.countReg = s.countReg ∧ t.len = s.len ∧
        (s.readIndex ≠ s.writeIndex → t.storage.read s.readIndex = none) ∧
        (∀ a, a ≠ s.writeIndex → a ≠ s.readIndex → t.storage.read a = s.storage.read a))

/-- 30_encoding.md R77. -/
def Obligations.OverwriteCodesRefusedWhenAbsent : Prop :=
  ∀ s : State, s.resetSeen = true → s.cfg.hasOverwrite = false →
    exec .rsvP s = .refused .overwriteNotConfigured ∧
    (∀ d, exec (.pushOvw d) s = .refused .overwriteNotConfigured) ∧
    (∀ w rest, s.drives w rest → w.ctrl.getLsbD 4 = false → w.ctrl.getLsbD 3 = true →
      step s = .refused .overwriteNotConfigured)

/-! ## Consumer commands -/

/-- 42_consumer.md R131. -/
def Obligations.PopRemovesOldest : Prop :=
  ∀ s : State, s.inv → s.resetSeen = true →
    ∃ t, exec .pop s = .next t ∧
      (s.isEmpty = true → t.arch = s.arch ∧ t.out.rdResp = .empty) ∧
      (s.isEmpty = false →
        s.storage.read s.readIndex = some t.out.rdData ∧ t.out.rdResp = .ok ∧
        t.readIndex = (s.readIndex + 1) % s.cfg.capacity ∧ t.writeIndex = s.writeIndex ∧
        t.countReg = s.countAfter 0 1 ∧ t.storage.read s.readIndex = none ∧
        (∀ a, a ≠ s.readIndex → t.storage.read a = s.storage.read a))

/-- 42_consumer.md R132. -/
def Obligations.PeekReadsOldest : Prop :=
  ∀ s : State, s.inv → s.resetSeen = true →
    ∃ t, exec .peek s = .next t ∧ t.arch = s.arch ∧
      (s.isEmpty = true → t.out.rdResp = .empty) ∧
      (s.isEmpty = false → s.storage.read s.readIndex = some t.out.rdData ∧ t.out.rdResp = .ok)

/-- 42_consumer.md R132 corner case (a), 20_memory.md R57: PEEK, and PEEK again, and then POP, give the same element, and
the POP takes one element off. -/
def Obligations.PeekThenPopGivesTheSameElement : Prop :=
  ∀ s : State, s.inv → s.resetSeen = true → s.isEmpty = false →
    ∃ t u v, exec .peek s = .next t ∧ exec .peek t = .next u ∧ exec .pop u = .next v ∧
      t.out.rdResp = .ok ∧ u.out.rdResp = .ok ∧ v.out.rdResp = .ok ∧
      t.out.rdData = u.out.rdData ∧ v.out.rdData = t.out.rdData ∧ v.len + 1 = s.len ∧
      s.contents = t.out.rdData :: v.contents

/-! ## Reset -/

/-- 70_reset_and_hazards.md R230, R231. -/
def Obligations.ResetClearsTheMachine : Prop :=
  ∀ s : State, ∃ t, exec .reset s = .next t ∧
    t.readIndex = 0 ∧ t.writeIndex = 0 ∧ t.countReg = 0 ∧ (∀ i, t.storage.read i = none) ∧ t.resetSeen = true ∧
    t.cfg = s.cfg ∧
    t.out.wrResp = .idle ∧ t.out.rdResp = .idle ∧ t.out.ramWe = false ∧ t.out.ramWaddr = s.writeIndex ∧
    t.out.ramRaddr = s.readIndex ∧ t.out.ramWdata = s.wrBus ∧
    (s.resetSeen = true →
      t.out.empty = s.emptyByRule ∧ t.out.full = s.fullByRule ∧ t.out.count = s.lenByRule)

/-- 30_encoding.md R73, 70_reset_and_hazards.md R239: the other bits of the control word and `wr_data` leave no trace in the
state, and both ports answer IDLE. -/
def Obligations.ResetCycleIgnoresItsCommands : Prop :=
  ∀ (s : State) (w : Input) (rest : List Input), s.drives w rest → w.ctrl.getLsbD 4 = true →
    step s = exec .reset (s.takeInput w rest) ∧
    ∃ t, step s = .next t ∧ t.out.wrResp = .idle ∧ t.out.rdResp = .idle ∧
      t.arch = { cfg := s.cfg, readIndex := 0, writeIndex := 0, countReg := 0, storage := [], resetSeen := true }

/-- 40_construction.md R104 (and the derived flags of 10_state.md R34): after a RESET cycle no element is live. -/
def Obligations.AfterResetTheBufferIsEmpty : Prop :=
  ∀ s t : State, exec .reset s = .next t →
    t.isEmpty = true ∧ t.len = 0 ∧ t.contents = [] ∧ (∀ i, t.live i = false) ∧
    (t.isFull = true ↔ s.cfg.mode = .twoCursor ∧ s.cfg.capacity = 1)

/-- 10_state.md R34: `State.reset` is the state after a RESET cycle, in the hardware's part, of its instance (log 1). -/
def Obligations.ResetStateIsTheStateAfterReset : Prop :=
  ∃ t, exec .reset State.reset = .next t ∧ t.arch = State.reset.arch ∧ State.reset.running

/-! ## Frames -/

/-- Commands that write no state (41_producer.md R110, 42_consumer.md R130 and R132, 30_encoding.md R76): all of the
storage, every register and every mark is unchanged. -/
def Obligations.QuietCommandsFrame : Prop :=
  ∀ (s t : State) (i : Instr), s.inv →
    (i = .nopP ∨ i = .rsvP ∨ i = .nopC ∨ i = .rsvC ∨ i = .peek) → exec i s = .next t →
    t.readIndex = s.readIndex ∧ t.writeIndex = s.writeIndex ∧ t.countReg = s.countReg ∧
    (∀ a, t.storage.read a = s.storage.read a) ∧ t.cfg = s.cfg ∧ t.resetSeen = s.resetSeen ∧
    t.faulted = s.faulted ∧ t.refused = s.refused ∧ t.inputs = s.inputs ∧ t.wrBus = s.wrBus

/-- What PUSH leaves unchanged (41_producer.md R111; 20_memory.md R59): it writes `write_index`, slot `write_index` and
`count_reg`, and none of these when it answers FULL. -/
def Obligations.PushFrame : Prop :=
  ∀ (s t : State) (d : Elem), s.inv → exec (.push d) s = .next t →
    t.readIndex = s.readIndex ∧ (s.cfg.mode = .twoCursor → t.countReg = s.countReg) ∧
    (∀ a, a ≠ s.writeIndex → t.storage.read a = s.storage.read a) ∧
    (t.out.wrResp = .full → t.writeIndex = s.writeIndex ∧ t.countReg = s.countReg ∧
      ∀ a, t.storage.read a = s.storage.read a) ∧
    t.cfg = s.cfg ∧ t.resetSeen = s.resetSeen ∧ t.faulted = s.faulted ∧ t.refused = s.refused ∧
    t.inputs = s.inputs ∧ t.wrBus = s.wrBus

/-- What PUSH_OVW leaves unchanged (41_producer.md R112): it writes `write_index`, slot `write_index`, `count_reg`, and on a
full buffer `read_index`, whose slot it ends. -/
def Obligations.PushOvwFrame : Prop :=
  ∀ (s t : State) (d : Elem), s.inv → exec (.pushOvw d) s = .next t →
    (s.isFull = false → t.readIndex = s.readIndex) ∧ (s.cfg.mode = .twoCursor → t.countReg = s.countReg) ∧
    (∀ a, a ≠ s.writeIndex → (s.isFull = true → a ≠ s.readIndex) → t.storage.read a = s.storage.read a) ∧
    t.cfg = s.cfg ∧ t.resetSeen = s.resetSeen ∧ t.faulted = s.faulted ∧ t.refused = s.refused ∧
    t.inputs = s.inputs ∧ t.wrBus = s.wrBus

/-- What POP leaves unchanged (42_consumer.md R131; 20_memory.md R59): it writes `read_index` and `count_reg` and ends the
life of slot `read_index`, and none of these when it answers EMPTY. -/
def Obligations.PopFrame : Prop :=
  ∀ (s t : State), s.inv → exec .pop s = .next t →
    t.writeIndex = s.writeIndex ∧ (s.cfg.mode = .twoCursor → t.countReg = s.countReg) ∧
    (∀ a, a ≠ s.readIndex → t.storage.read a = s.storage.read a) ∧
    (t.out.rdResp = .empty → t.readIndex = s.readIndex ∧ t.countReg = s.countReg ∧
      ∀ a, t.storage.read a = s.storage.read a) ∧
    t.cfg = s.cfg ∧ t.resetSeen = s.resetSeen ∧ t.faulted = s.faulted ∧ t.refused = s.refused ∧
    t.inputs = s.inputs ∧ t.wrBus = s.wrBus

/-- What RESET, the status rows and NEW leave unchanged: RESET the configuration, the marks of a stopped run and the host's
inputs (70_reset_and_hazards.md R230); a status row everything but the outputs `empty`, `full` and `count` in the record of the
outputs, of which StatusReadsComplete says the row's own is written; NEW the host's inputs and the record of the outputs. The
model's own: that a status row on its own writes the record of its port and nothing else is log 14 (DESIGN CHOICE), what NEW
keeps is log 12 (DESIGN CHOICE). -/
def Obligations.ResetStatusAndNewFrame : Prop :=
  (∀ s t : State, exec .reset s = .next t → t.cfg = s.cfg ∧ t.faulted = s.faulted ∧ t.refused = s.refused ∧
    t.inputs = s.inputs ∧ t.wrBus = s.wrBus) ∧
  (∀ (s t : State) (i : Instr), (i = .isEmpty ∨ i = .isFull ∨ i = .len) → exec i s = .next t →
    { t with out := s.out } = s ∧ t.out.wrResp = s.out.wrResp ∧ t.out.rdResp = s.out.rdResp ∧
    t.out.rdData = s.out.rdData ∧ t.out.ramWe = s.out.ramWe ∧ t.out.ramWaddr = s.out.ramWaddr ∧
    t.out.ramWdata = s.out.ramWdata ∧ t.out.ramRaddr = s.out.ramRaddr) ∧
  (∀ (s t : State) (p : NewParams), exec (.new p) s = .next t → t.inputs = s.inputs ∧ t.out = s.out)

/-! ## One clock cycle -/

/-- A step runs the decoded instruction: where the control word is that of one command alone, the step is `exec` of that
instruction after the cycle's inputs are taken. The model's own: the host's sequence as a list (log 3, DESIGN CHOICE), `wr_data`
as a field (log 6, DESIGN CHOICE), and an instruction alone as the cycle whose other port is idle (log 13, DEDUCED). -/
def Obligations.StepRunsDecodedInstruction : Prop :=
  ∀ (s : State) (w : Input) (rest : List Input) (i : Instr) (dec : Decoded), s.drives w rest →
    decode s.cfg w = .ok dec → i.alone = some dec → step s = exec i (s.takeInput w rest)

/-- A step runs both commands of its control word together (44_cycle.md R172). -/
def Obligations.StepRunsBothCommands : Prop :=
  ∀ (s : State) (w : Input) (rest : List Input) (p : ProducerCmd) (c : ConsumerCmd), s.drives w rest →
    s.resetSeen = true → decode s.cfg w = .ok (.cycle p c) → step s = runPair p c (s.takeInput w rest)

/-- 44_cycle.md R174, R175, R176, R177: the signals of the two ports and the state after the edge. -/
def Obligations.CycleFollowsTheStepRule : Prop :=
  ∀ (s : State) (w : Input) (rest : List Input) (p : ProducerCmd) (c : ConsumerCmd), s.inv → s.resetSeen = true →
    s.drives w rest → decode s.cfg w = .ok (.cycle p c) →
    ∃ (t : State) (wAcc popAcc drop : Bool), step s = .next t ∧
      (wAcc = true ↔ (p.isPush = true ∧ s.isFull = false) ∨ p = .pushOvw (w.wrData % 2 ^ s.cfg.dataW)) ∧
      (popAcc = true ↔ c = .pop ∧ s.isEmpty = false) ∧
      (drop = true ↔ p = .pushOvw (w.wrData % 2 ^ s.cfg.dataW) ∧ s.isFull = true ∧ popAcc = false) ∧
      t.writeIndex = (s.writeIndex + wAcc.toNat) % s.cfg.capacity ∧
      t.readIndex = (s.readIndex + popAcc.toNat + drop.toNat) % s.cfg.capacity ∧
      t.countReg = s.countAfter wAcc.toNat (popAcc.toNat + drop.toNat) ∧
      (s.cfg.mode = .countTracked → t.countReg ≤ s.cfg.capacity ∧
        (t.countReg : Int) = s.countReg + wAcc.toNat - popAcc.toNat - drop.toNat) ∧
      (∀ i, t.storage.read i =
        if t.live i = true then
          (if wAcc = true ∧ i = s.writeIndex then some (w.wrData % 2 ^ s.cfg.dataW) else s.storage.read i)
        else none) ∧
      t.out.wrResp =
        (if p.isPush = true then (if s.isFull = true then .full else .ok)
         else if p = .pushOvw (w.wrData % 2 ^ s.cfg.dataW) then .ok else .idle) ∧
      t.out.rdResp =
        (if c = .pop ∨ c = .peek then (if s.isEmpty = true then .empty else .ok) else .idle) ∧
      (t.out.rdResp = .ok → s.storage.read s.readIndex = some t.out.rdData) ∧
      t.out.ramWe = wAcc

/-- 60_exceptions.md R209. That the ports answer independently is said by comparison: each answers what its command answers
when the other port is idle. -/
def Obligations.CyclePriority : Prop :=
  ∀ (s : State) (w : Input) (rest : List Input), s.inv → s.drives w rest →
    (w.ctrl.getLsbD 4 = true → ∃ t, step s = .next t ∧ t.out.wrResp = .idle ∧ t.out.rdResp = .idle) ∧
    (w.ctrl.getLsbD 4 = false → s.resetSeen = false → step s = .refused .notReset) ∧
    (w.ctrl.getLsbD 4 = false → s.resetSeen = true → s.cfg.hasOverwrite = false → w.ctrl.getLsbD 3 = true →
      step s = .refused .overwriteNotConfigured) ∧
    (w.ctrl.getLsbD 4 = false → s.resetSeen = true → (s.cfg.hasOverwrite = true ∨ w.ctrl.getLsbD 3 = false) →
      ∃ p c t u v, decode s.cfg w = .ok (.cycle p c) ∧ step s = .next t ∧
        exec p.instr (s.takeInput w rest) = .next u ∧ t.out.wrResp = u.out.wrResp ∧
        exec c.instr (s.takeInput w rest) = .next v ∧ t.out.rdResp = v.out.rdResp ∧
        (t.out.wrResp = .full ∧ t.out.rdResp = .empty → s.cfg.mode = .twoCursor ∧ s.cfg.capacity = 1))

/-- 70_reset_and_hazards.md R232: before the first RESET cycle every command is refused, RESET is not, and from then on
`reset_seen` stays 1. -/
def Obligations.UnresetMachineRefusesCommands : Prop :=
  (∀ (s : State) (i : Instr), s.resetSeen = false →
    (i = .nopP ∨ (∃ d, i = .push d) ∨ i = .rsvP ∨ (∃ d, i = .pushOvw d) ∨ i = .nopC ∨ i = .pop ∨ i = .rsvC ∨ i = .peek) →
    exec i s = .refused .notReset) ∧
  (∀ s : State, ∃ t, exec .reset s = .next t ∧ t.resetSeen = true) ∧
  (∀ s t : State, s.resetSeen = true → step s = .next t → t.resetSeen = true)

/-- 44_cycle.md R178, first sentence: the cycle's state and responses are those of its two commands run one after the
other, the consumer's first, except that a PUSH on a full buffer goes first. -/
def Obligations.CycleEqualsCommandsInSequence : Prop :=
  ∀ (s : State) (w : Input) (rest : List Input) (p : ProducerCmd) (c : ConsumerCmd), s.inv → s.resetSeen = true →
    s.drives w rest → decode s.cfg w = .ok (.cycle p c) →
    ∃ t u v, step s = .next t ∧ v.arch = t.arch ∧
      if p.isPush = true ∧ s.isFull = true then
        exec p.instr (s.takeInput w rest) = .next u ∧ exec c.instr u = .next v ∧
        u.out.wrResp = t.out.wrResp ∧ v.out.rdResp = t.out.rdResp ∧
        (t.out.rdResp = .ok → v.out.rdData = t.out.rdData)
      else
        exec c.instr (s.takeInput w rest) = .next u ∧ exec p.instr u = .next v ∧
        v.out.wrResp = t.out.wrResp ∧ u.out.rdResp = t.out.rdResp ∧
        (t.out.rdResp = .ok → u.out.rdData = t.out.rdData)

/-- 44_cycle.md R178, second sentence: every cycle is the same cycle of the source's single-threaded ring buffer over the
list of the elements held. -/
def Obligations.CycleRefinesRingBuffer : Prop :=
  ∀ (s : State) (w : Input) (rest : List Input) (p : ProducerCmd) (c : ConsumerCmd), s.inv → s.resetSeen = true →
    s.drives w rest → decode s.cfg w = .ok (.cycle p c) →
    ∃ t, step s = .next t ∧
      ringCycle s.cfg.usable p c s.contents =
        (t.out.wrResp, t.out.rdResp, (if t.out.rdResp = .ok then some t.out.rdData else none), t.contents)

/-- 44_cycle.md R181. -/
def Obligations.StepKeepsInvariant : Prop :=
  ∀ s t : State, s.inv → step s = .next t → t.inv

/-- 44_cycle.md R181 for every instruction on its own, NEW and the status rows among them. -/
def Obligations.EveryInstructionKeepsInvariant : Prop :=
  ∀ (s t : State) (i : Instr), s.inv → i.wf s.cfg = true → exec i s = .next t → t.inv

/-- 10_state.md R30, R31, R34: the invariant holds at reset. -/
def Obligations.ResetStateSatisfiesInvariant : Prop := State.reset.inv

/-- 44_cycle.md R182. Over any run without a RESET cycle from an empty buffer, the elements accepted are, in order, the
elements that left the buffer followed by those still held; the ones that left are those the accepted POPs returned, in
order, with the dropped ones between them. And an accepted PEEK returns what the next accepted POP returns, where from the
PEEK's cycle to the POP no element is popped or dropped. -/
def Obligations.FifoOrder : Prop :=
  (∀ (n : Nat) (s t : State) (log : FifoLog), s.inv → s.resetSeen = true → s.contents = [] →
    (∀ w ∈ s.inputs.take n, w.ctrl.rst = false) → fifoLog n s = some (log, t) →
    ∃ left : List (Bool × Elem),
      left.map (·.2) ++ t.contents = log.written ∧
      (left.filter (·.1)).map (·.2) = log.popped ∧
      (left.filter (fun x => !x.1)).length = log.dropped) ∧
  (∀ (n : Nat) (s t u v : State) (w z : Input) (rest rest' : List Input) (log : FifoLog), s.inv →
    s.drives w rest → w.ctrl.rst = false → w.ctrl.consumerField = 0b11#2 → step s = .next t → t.out.rdResp = .ok →
    (cycleLog w s t).dropped = 0 →
    (∀ x ∈ rest.take n, x.ctrl.rst = false) → fifoLog n t = some (log, u) → log.popped = [] → log.dropped = 0 →
    u.drives z rest' → z.ctrl.rst = false → z.ctrl.consumerField = 0b01#2 → step u = .next v → v.out.rdResp = .ok →
    v.out.rdData = t.out.rdData)

/-- 60_exceptions.md R205: from a state of the invariant that is not already faulted no run faults. -/
def Obligations.RunsNeverFault : Prop :=
  ∀ s : State, s.inv → s.faulted = none → s.safe

/-- 60_exceptions.md R205. The model's own: that `State.record` and `runMarked` set the mark, with the reason, and that a step of
a faulted run answers its fault again, even where the mark `refused` stands too (log 7, DEDUCED); and the instance of
`State.reset`, from which the last clause runs (log 1, DESIGN CHOICE), with what the host drives as a list (log 3, DESIGN
CHOICE). -/
def Obligations.EmptySlotReadFaults : Prop :=
  (∀ (s : State) (i : Nat), s.storage.read i = none → memRead s i = .error .slotUnwritten) ∧
  (∀ s : State, s.resetSeen = true → s.isEmpty = false → s.storage.read s.readIndex = none →
    exec .pop s = .fault .slotUnwritten ∧ exec .peek s = .fault .slotUnwritten) ∧
  (∀ (s : State) (f : Fault), step s = .fault f → (s.record (step s)).faulted = some f) ∧
  (∀ (s : State) (f : Fault), s.faulted = some f → step s = .fault f ∧ ∀ n, (runMarked n s).faulted = some f) ∧
  (∀ ws : List Input, State.safe { State.reset with inputs := ws })

/-- 60_exceptions.md R204: the two reasons, the mark, and that it ends the run. The model's own: that the mark holds the reason,
that `State.record` and `runMarked` set it, and that a step of a marked run answers it again (log 7, DEDUCED); among the
reasons is the model's `noControlWord`, for a host's sequence that has ended (log 3, DESIGN CHOICE). -/
def Obligations.RefusedRunTakesNoFurtherStep : Prop :=
  (∀ (s : State) (w : Input) (rest : List Input), s.drives w rest → w.ctrl.getLsbD 4 = false →
    (s.resetSeen = false → step s = .refused .notReset) ∧
    (s.resetSeen = true → s.cfg.hasOverwrite = false → w.ctrl.getLsbD 3 = true →
      step s = .refused .overwriteNotConfigured)) ∧
  (∀ (s : State) (r : Refusal), step s = .refused r → s.record (step s) = { s with refused := some r }) ∧
  (∀ (s : State) (r : Refusal), s.faulted = none → s.refused = some r →
    step s = .refused r ∧ ∀ n, runMarked n s = s)

/-- 70_reset_and_hazards.md R235, R236: an accepted element and a freed slot are seen in the next cycle and not before. (An
instance that can hold no element, USABLE = 0, loses an overwriting push at once.) -/
def Obligations.NoBypassBetweenPorts : Prop :=
  ∀ (s : State) (w : Input) (rest : List Input) (p : ProducerCmd) (c : ConsumerCmd), s.inv → s.resetSeen = true →
    s.drives w rest → decode s.cfg w = .ok (.cycle p c) →
    ∃ t, step s = .next t ∧ t.out.empty = s.emptyByRule ∧ t.out.count = s.lenByRule ∧
      (s.isEmpty = true → (c = .pop ∨ c = .peek) → t.out.rdResp = .empty) ∧
      ((p.isPush = true ∧ s.isFull = false) ∨ p = .pushOvw (w.wrData % 2 ^ s.cfg.dataW) → s.cfg.usable ≠ 0 →
        t.isEmpty = false ∧ t.contents.getLast? = some (w.wrData % 2 ^ s.cfg.dataW) ∧
        (s.isEmpty = true → t.len = 1 ∧ t.storage.read t.readIndex = some (w.wrData % 2 ^ s.cfg.dataW))) ∧
      (s.isFull = true → p.isPush = true → t.out.wrResp = .full) ∧
      (s.isFull = true → p.isPush = true ∨ p = .nopP → c = .pop → s.isEmpty = false →
        t.out.rdResp = .ok ∧ t.isFull = false)

/-- 70_reset_and_hazards.md R237. -/
def Obligations.StatusPredictsAcceptance : Prop :=
  ∀ (s : State) (w : Input) (rest : List Input) (p : ProducerCmd) (c : ConsumerCmd), s.inv → s.resetSeen = true →
    s.drives w rest → decode s.cfg w = .ok (.cycle p c) →
    ∃ t, step s = .next t ∧
      (p.isPush = true → (t.out.wrResp = .ok ↔ t.out.full = false)) ∧
      ((c = .pop ∨ c = .peek) → (t.out.rdResp = .ok ↔ t.out.empty = false)) ∧
      ((p.isPush = true → t.out.full = false) → t.out.wrResp ≠ .full) ∧
      ((c = .pop ∨ c = .peek → t.out.empty = false) → t.out.rdResp ≠ .empty)

/-- 70_reset_and_hazards.md R240. -/
def Obligations.DegenerateInstanceHoldsNothing : Prop :=
  (∀ s t : State, s.inv → s.resetSeen = true → s.cfg.mode = .twoCursor → s.cfg.reqCapacity = 1 → step s = .next t →
    s.cfg.capacity = 1 ∧ s.cfg.usable = 0 ∧ t.out.empty = true ∧ t.out.full = true ∧ t.contents = []) ∧
  (∀ (s : State) (w : Input) (rest : List Input) (p : ProducerCmd) (c : ConsumerCmd), s.inv → s.resetSeen = true →
    s.cfg.mode = .twoCursor → s.cfg.reqCapacity = 1 → s.drives w rest → decode s.cfg w = .ok (.cycle p c) →
    ∃ t, step s = .next t ∧ t.arch = s.arch ∧
      (p.isPush = true → t.out.wrResp = .full) ∧ (c = .pop ∨ c = .peek → t.out.rdResp = .empty) ∧
      (p = .pushOvw (w.wrData % 2 ^ s.cfg.dataW) → t.out.wrResp = .ok))

/-- 40_construction.md R106: neither a step nor any instruction but NEW changes the configuration. -/
def Obligations.CapacityNeverChanges : Prop :=
  (∀ s t : State, step s = .next t → t.cfg = s.cfg) ∧
  (∀ (s t : State) (i : Instr), (∀ p, i ≠ .new p) → exec i s = .next t → t.cfg = s.cfg)

/-- 44_cycle.md R179. The cycle is compared with the same cycle whose other port is idle: the consumer's command makes no
difference to `write_index` and to no slot but the one it reads; the producer's command makes none to `read_index`, and to
no slot but the one it writes, unless it is a PUSH_OVW on a full buffer; and the two ports' shares of `count_reg` add up. -/
def Obligations.PortsWriteSeparately : Prop :=
  ∀ (s t u v : State) (p : ProducerCmd) (c : ConsumerCmd), s.inv → s.resetSeen = true →
    runPair p c s = .next t → runPair p .nopC s = .next u → runPair .nopP c s = .next v →
    t.writeIndex = u.writeIndex ∧ t.out.ramWe = u.out.ramWe ∧ t.out.wrResp = u.out.wrResp ∧
    (∀ a, a ≠ s.readIndex → t.storage.read a = u.storage.read a) ∧
    t.out.rdResp = v.out.rdResp ∧ (t.out.rdResp = .ok → t.out.rdData = v.out.rdData) ∧
    (∀ a, a ≠ s.writeIndex → a ≠ s.readIndex → t.storage.read a = v.storage.read a) ∧
    ((∀ d, p ≠ .pushOvw d) ∨ s.isFull = false →
      t.readIndex = v.readIndex ∧ (∀ a, a ≠ s.writeIndex → t.storage.read a = v.storage.read a) ∧
      t.countReg + s.countReg = u.countReg + v.countReg)

/-- 44_cycle.md R183: two machines that agree in the hardware's part, the marks and the host's inputs take the same step,
whatever the free values, the record of the outputs and the port's last value: the same hardware state, and the same
outputs but for an unspecified `rd_data` (before the first reset the outputs are unspecified, 70_reset_and_hazards.md R232). -/
def Obligations.StepIgnoresUnspecifiedValues : Prop :=
  ∀ s₁ s₂ t₁ : State, s₁.arch = s₂.arch → s₁.faulted = s₂.faulted → s₁.refused = s₂.refused →
    s₁.inputs = s₂.inputs → step s₁ = .next t₁ →
    ∃ t₂, step s₂ = .next t₂ ∧ t₁.arch = t₂.arch ∧ t₁.inputs = t₂.inputs ∧
      (s₁.resetSeen = true → t₁.out.agree t₂.out)

/-- 70_reset_and_hazards.md R234: in a cycle that is no RESET, with no accepted POP and no drop, every element held stays,
in its place. -/
def Obligations.ElementsLeaveOnlyByPopOrDrop : Prop :=
  ∀ (s t : State) (w : Input) (rest : List Input), s.inv → s.drives w rest → w.ctrl.rst = false → step s = .next t →
    (cycleLog w s t).popped = [] → (cycleLog w s t).dropped = 0 →
    ∃ new, t.contents = s.contents ++ new ∧
      ∀ k, k < s.len → t.storage.read ((s.readIndex + k) % s.cfg.capacity) =
        s.storage.read ((s.readIndex + k) % s.cfg.capacity)

/-- 10_state.md R28-R30, 40_construction.md R105: the elements held are `len` many and at most USABLE. -/
def Obligations.ElementCountWithinUsable : Prop :=
  ∀ s : State, s.inv → s.resetSeen = true →
    s.contents.length = s.len ∧ s.len ≤ s.cfg.usable ∧
    s.cfg.usable = (match s.cfg.mode with | .twoCursor => s.cfg.capacity - 1 | .countTracked => s.cfg.capacity) ∧
    s.writeIndex = (s.readIndex + s.len) % s.cfg.capacity
end

