-- ==== Sys2Proof/Laws/Capacity.lean ====
section
/-! SUPPORT. The derived constants and the index arithmetic: CAPACITY is a power of two, and masking is reduction
modulo CAPACITY. -/

namespace Sys2Proof

/-- The loop only doubles. -/
theorem roundUpFrom_eq_pow (fuel p n : Nat) : ∃ j, roundUpFrom fuel p n = 2 ^ j * p := by
  induction fuel generalizing p with
  | zero => exact ⟨0, by simp [roundUpFrom]⟩
  | succ fuel ih =>
    unfold roundUpFrom
    split
    · obtain ⟨j, hj⟩ := ih (2 * p)
      exact ⟨j + 1, by rw [hj]; ring⟩
    · exact ⟨0, by simp⟩

/-- With fuel enough, the loop ends at or above `n`. -/
theorem le_roundUpFrom (fuel p n : Nat) (h : n ≤ 2 ^ fuel * p) : n ≤ roundUpFrom fuel p n := by
  induction fuel generalizing p with
  | zero => simpa [roundUpFrom] using h
  | succ fuel ih =>
    unfold roundUpFrom
    split
    · exact ih _ (by rw [pow_succ, mul_assoc] at h; exact h)
    · omega

/-- The loop ends at its start or below twice `n`. -/
theorem roundUpFrom_lt (fuel p n : Nat) : roundUpFrom fuel p n = p ∨ roundUpFrom fuel p n < 2 * n := by
  induction fuel generalizing p with
  | zero => exact .inl rfl
  | succ fuel ih =>
    unfold roundUpFrom
    split
    · rcases ih (2 * p) with h | h
      · right; omega
      · exact .inr h
    · exact .inl rfl

namespace Config

theorem capacity_eq_pow (c : Config) : ∃ k, c.capacity = 2 ^ k := by
  obtain ⟨j, hj⟩ := roundUpFrom_eq_pow c.reqCapacity 1 c.reqCapacity
  exact ⟨j, by simpa [capacity, roundUpToPow2] using hj⟩

theorem capacity_eq (c : Config) : c.capacity = 2 ^ c.ptrW := by
  obtain ⟨k, hk⟩ := c.capacity_eq_pow
  simp [ptrW, hk, Nat.log2_two_pow]

theorem capacity_pos (c : Config) : 0 < c.capacity := by
  rw [capacity_eq]; exact Nat.two_pow_pos _

theorem mask_eq (c : Config) : c.mask = 2 ^ c.ptrW - 1 := by rw [mask, capacity_eq]

/-- CAPACITY fits in CNT_W bits. -/
theorem capacity_lt_cntW (c : Config) : c.capacity < 2 ^ c.cntW := by
  rw [capacity_eq, cntW]
  exact Nat.pow_lt_pow_right (by omega) (by omega)

end Config

/-- Masking with `2 ^ k - 1` is reduction modulo `2 ^ k` (00_scope.md R12). -/
theorem andMask_pow (x : Int) (k : Nat) : andMask x (2 ^ k - 1) = (x % (2 ^ k : Nat)).toNat := by
  have pos : 0 < 2 ^ k := Nat.two_pow_pos k
  cases x with
  | ofNat n =>
    simp only [andMask, Nat.and_two_pow_sub_one_eq_mod]
    rfl
  | negSucc n =>
    simp only [andMask, Nat.and_two_pow_sub_one_eq_mod]
    have hx : (2 ^ k - 1) ^^^ (n % 2 ^ k) = 2 ^ k - 1 - n % 2 ^ k := by
      have hlt := Nat.mod_lt n pos
      apply Nat.eq_of_testBit_eq
      intro i
      rw [Nat.testBit_xor, Nat.testBit_two_pow_sub_one, Nat.sub_sub, Nat.add_comm,
        Nat.testBit_two_pow_sub_succ hlt]
      by_cases hi : i < k
      · simp [hi]
      · have : (n % 2 ^ k).testBit i = false :=
          Nat.testBit_lt_two_pow (lt_of_lt_of_le hlt (Nat.pow_le_pow_right (by omega) (by omega)))
        simp [hi, this]
    rw [hx, Int.negSucc_emod _ (by omega)]
    have := Nat.mod_lt n pos
    omega

namespace Config

theorem advance_eq_mod (c : Config) (x n : Nat) : c.advance x n = (x + n) % c.capacity := by
  rw [advance, mask_eq, Nat.and_two_pow_sub_one_eq_mod, capacity_eq]

theorem advance_lt (c : Config) (x n : Nat) : c.advance x n < c.capacity := by
  rw [advance_eq_mod]; exact Nat.mod_lt _ c.capacity_pos

theorem advance_zero (c : Config) {x : Nat} (h : x < c.capacity) : c.advance x 0 = x := by
  rw [advance_eq_mod, Nat.add_zero, Nat.mod_eq_of_lt h]

theorem advance_advance (c : Config) (x m n : Nat) : c.advance (c.advance x m) n = c.advance x (m + n) := by
  simp only [advance_eq_mod, Nat.mod_add_mod, Nat.add_assoc]

theorem distance_eq_mod (c : Config) (a b : Nat) :
    c.distance a b = (((a : Int) - b) % (c.capacity : Int)).toNat := by
  rw [distance, mask_eq, andMask_pow, capacity_eq]

theorem distance_lt (c : Config) (a b : Nat) : c.distance a b < c.capacity := by
  have := c.capacity_pos
  have h := Int.emod_lt_of_pos ((a : Int) - b) (b := (c.capacity : Int)) (by omega)
  have h0 := Int.emod_nonneg ((a : Int) - b) (b := (c.capacity : Int)) (by omega)
  rw [distance_eq_mod]; omega

/-- The distance of two indices, by cases on their order. -/
theorem distance_eq (c : Config) {a b : Nat} (ha : a < c.capacity) (hb : b < c.capacity) :
    c.distance a b = if b ≤ a then a - b else a + c.capacity - b := by
  rw [distance_eq_mod]
  split
  · rw [Int.emod_eq_of_lt (by omega) (by omega)]; omega
  · rw [← Int.add_emod_right, Int.emod_eq_of_lt (by omega) (by omega)]; omega

/-- Advancing by the distance leads there. -/
theorem advance_distance (c : Config) {a b : Nat} (ha : a < c.capacity) (hb : b < c.capacity) :
    c.advance b (c.distance a b) = a := by
  rw [distance_eq c ha hb, advance_eq_mod]
  split
  · rw [show b + (a - b) = a by omega, Nat.mod_eq_of_lt ha]
  · rw [show b + (a + c.capacity - b) = a + c.capacity by omega, Nat.add_mod_right, Nat.mod_eq_of_lt ha]

/-- The distance of an advanced index is what it was advanced by. -/
theorem distance_advance (c : Config) {b n : Nat} (hb : b < c.capacity) (hn : n < c.capacity) :
    c.distance (c.advance b n) b = n := by
  rw [distance_eq c (c.advance_lt _ _) hb, advance_eq_mod]
  by_cases h : b + n < c.capacity
  · rw [Nat.mod_eq_of_lt h]; split <;> omega
  · have : (b + n) % c.capacity = b + n - c.capacity := by
      rw [Nat.mod_eq_sub_mod (by omega), Nat.mod_eq_of_lt (by omega)]
    rw [this]; split <;> omega

/-- The distance after the base has moved on by one. -/
theorem distance_advance_base (c : Config) {a b : Nat} (ha : a < c.capacity) (hb : b < c.capacity) :
    c.distance a (c.advance b 1) =
      if c.distance a b = 0 then c.capacity - 1 else c.distance a b - 1 := by
  have hpos := c.capacity_pos
  have hadv : c.advance b 1 = if b + 1 = c.capacity then 0 else b + 1 := by
    rw [advance_eq_mod]
    split
    · rename_i h; rw [h, Nat.mod_self]
    · rw [Nat.mod_eq_of_lt (by omega)]
  rw [distance_eq c ha (c.advance_lt _ _), distance_eq c ha hb, hadv]
  split_ifs <;> omega

theorem distance_eq_zero (c : Config) {a b : Nat} (ha : a < c.capacity) (hb : b < c.capacity) :
    c.distance a b = 0 ↔ a = b := by
  rw [distance_eq c ha hb]
  split <;> omega

end Config

end Sys2Proof
end

