-- ==== Sys2Proof/Laws/Memory.lean ====
section
/-! SUPPORT. The storage: a read after a write, a read after clearing, the canonical form, and equality by reads. -/

namespace Sys2Proof.Machine.Memory

theorem read_write_same (m : Memory) (i : Nat) (v : Elem) : (write m i v).read i = some v := by
  induction m with
  | nil => simp [write, read]
  | cons cell m ih =>
    obtain ⟨j, u⟩ := cell
    simp only [write]
    split_ifs with h1 h2
    · simp [read]
    · simp [read]
    · rw [read, if_neg (by omega), ih]

theorem read_write_other (m : Memory) {i k : Nat} (v : Elem) (h : k ≠ i) : (write m i v).read k = m.read k := by
  induction m with
  | nil => simp [write, read, Ne.symm h]
  | cons cell m ih =>
    obtain ⟨j, u⟩ := cell
    simp only [write]
    split_ifs with h1 h2
    · simp [read, Ne.symm h]
    · subst h2; simp [read, Ne.symm h]
    · simp only [read, ih]

theorem read_write (m : Memory) (i k : Nat) (v : Elem) :
    (write m i v).read k = if k = i then some v else m.read k := by
  split
  · rename_i h; rw [h, read_write_same]
  · rename_i h; exact read_write_other m v h

theorem read_keep (m : Memory) (p : Nat → Bool) (k : Nat) :
    (m.keep p).read k = if p k then m.read k else none := by
  induction m with
  | nil => simp [keep, read]
  | cons cell m ih =>
    obtain ⟨j, u⟩ := cell
    simp only [keep, List.filter_cons] at ih ⊢
    by_cases hjk : j = k
    · subst hjk
      by_cases hp : p j = true
      · simp [hp, read]
      · simp only [hp, if_false, Bool.false_eq_true] at ih ⊢
        exact ih
    · by_cases hp : p j = true <;> simp [hp, read, hjk, ih]

theorem mem_write {m : Memory} {i : Nat} {v : Elem} {cell : Nat × Elem} (h : cell ∈ write m i v) :
    cell = (i, v) ∨ cell ∈ m := by
  induction m with
  | nil => simpa [write] using h
  | cons c m ih =>
    obtain ⟨j, u⟩ := c
    simp only [write] at h
    split_ifs at h with h1 h2
    · simpa using h
    · simp only [List.mem_cons] at h ⊢; tauto
    · simp only [List.mem_cons] at h ⊢
      rcases h with h | h
      · tauto
      · rcases ih h with h | h <;> tauto

/-- Writing keeps the canonical form. -/
theorem wf_write {m : Memory} (h : wf m) (i : Nat) (v : Elem) : wf (write m i v) := by
  induction m with
  | nil => simp [write, wf]
  | cons c m ih =>
    obtain ⟨j, u⟩ := c
    simp only [wf, List.pairwise_cons] at h ih ⊢
    simp only [write]
    split_ifs with h1 h2
    · refine List.pairwise_cons.2 ⟨?_, List.pairwise_cons.2 h⟩
      intro cell hc
      rcases List.mem_cons.1 hc with hc | hc
      · rw [hc]; exact h1
      · exact lt_trans h1 (h.1 cell hc)
    · subst h2; exact List.pairwise_cons.2 h
    · refine List.pairwise_cons.2 ⟨?_, ih h.2⟩
      intro cell hc
      rcases mem_write hc with hc | hc
      · rw [hc]; show j < i; omega
      · exact h.1 cell hc

/-- Clearing keeps the canonical form. -/
theorem wf_keep {m : Memory} (h : wf m) (p : Nat → Bool) : wf (m.keep p) := List.Pairwise.filter _ h

theorem mem_keep {m : Memory} {p : Nat → Bool} {cell : Nat × Elem} :
    cell ∈ m.keep p ↔ cell ∈ m ∧ p cell.1 = true := List.mem_filter

theorem read_of_mem {m : Memory} (h : wf m) {i : Nat} {v : Elem} (hm : (i, v) ∈ m) : m.read i = some v := by
  induction m with
  | nil => cases hm
  | cons c m ih =>
    obtain ⟨j, u⟩ := c
    simp only [wf, List.pairwise_cons] at h
    rcases List.mem_cons.1 hm with he | he
    · cases he; simp [read]
    · have : j < i := h.1 _ he
      rw [read, if_neg (by omega), ih h.2 he]

theorem mem_of_read {m : Memory} {i : Nat} {v : Elem} (h : m.read i = some v) : (i, v) ∈ m := by
  induction m with
  | nil => cases h
  | cons c m ih =>
    obtain ⟨j, u⟩ := c
    rw [read] at h
    split_ifs at h with hj
    · cases h; subst hj; exact List.mem_cons_self
    · exact List.mem_cons_of_mem _ (ih h)

/-- Two storages in canonical form that read alike are equal. -/
theorem eq_of_read_eq {m n : Memory} (hm : wf m) (hn : wf n) (h : ∀ i, m.read i = n.read i) : m = n := by
  have nodup : ∀ {l : Memory}, wf l → l.Nodup := by
    intro l hl
    exact hl.imp (fun {a b} hab he => by rw [he] at hab; exact lt_irrefl _ hab)
  have sub : ∀ {a b : Memory}, wf a → wf b → (∀ i, a.read i = b.read i) → ∀ cell ∈ a, cell ∈ b := by
    intro a b ha hb hab cell hc
    obtain ⟨i, v⟩ := cell
    exact mem_of_read (by rw [← hab, read_of_mem ha hc])
  have perm : m.Perm n :=
    (List.perm_ext_iff_of_nodup (nodup hm) (nodup hn)).2
      (fun cell => ⟨sub hm hn h cell, sub hn hm (fun i => (h i).symm) cell⟩)
  exact perm.eq_of_pairwise (fun a b _ _ hab hba => absurd (lt_trans hab hba) (lt_irrefl _)) hm hn

end Sys2Proof.Machine.Memory
end

