-- ==== Sys2Proof/Laws/State.lean ====
section
/-! SUPPORT. One lemma per field of the state and per update of it. -/

namespace Sys2Proof.Machine.State

@[simp] theorem advanceRegs_cfg (s : State) (w p d : Bool) : (s.advanceRegs w p d).cfg = s.cfg := rfl
@[simp] theorem advanceRegs_readIndex (s : State) (w p d : Bool) : (s.advanceRegs w p d).readIndex = s.cfg.advance s.readIndex (p.toNat + d.toNat) := rfl
@[simp] theorem advanceRegs_writeIndex (s : State) (w p d : Bool) : (s.advanceRegs w p d).writeIndex = s.cfg.advance s.writeIndex w.toNat := rfl
@[simp] theorem advanceRegs_countReg (s : State) (w p d : Bool) : (s.advanceRegs w p d).countReg = 
    match s.cfg.mode with
    | .twoCursor    => s.countReg
    | .countTracked => s.countReg + w.toNat - p.toNat - d.toNat := rfl
@[simp] theorem advanceRegs_storage (s : State) (w p d : Bool) : (s.advanceRegs w p d).storage = s.storage := rfl
@[simp] theorem advanceRegs_resetSeen (s : State) (w p d : Bool) : (s.advanceRegs w p d).resetSeen = s.resetSeen := rfl
@[simp] theorem advanceRegs_faulted (s : State) (w p d : Bool) : (s.advanceRegs w p d).faulted = s.faulted := rfl
@[simp] theorem advanceRegs_refused (s : State) (w p d : Bool) : (s.advanceRegs w p d).refused = s.refused := rfl
@[simp] theorem advanceRegs_inputs (s : State) (w p d : Bool) : (s.advanceRegs w p d).inputs = s.inputs := rfl
@[simp] theorem advanceRegs_wrBus (s : State) (w p d : Bool) : (s.advanceRegs w p d).wrBus = s.wrBus := rfl
@[simp] theorem advanceRegs_out (s : State) (w p d : Bool) : (s.advanceRegs w p d).out = s.out := rfl
@[simp] theorem advanceRegs_draws (s : State) (w p d : Bool) : (s.advanceRegs w p d).draws = s.draws := rfl

@[simp] theorem edge_cfg (s : State) (d : Elem) (p : ProducerSignals) (c : ConsumerSignals) : (s.edge d p c).cfg = s.cfg := rfl
@[simp] theorem edge_readIndex (s : State) (d : Elem) (p : ProducerSignals) (c : ConsumerSignals) : (s.edge d p c).readIndex = s.cfg.advance s.readIndex (c.popAcc.toNat + p.drop.toNat) := rfl
@[simp] theorem edge_writeIndex (s : State) (d : Elem) (p : ProducerSignals) (c : ConsumerSignals) : (s.edge d p c).writeIndex = s.cfg.advance s.writeIndex p.wAcc.toNat := rfl
@[simp] theorem edge_countReg (s : State) (d : Elem) (p : ProducerSignals) (c : ConsumerSignals) : (s.edge d p c).countReg = 
    match s.cfg.mode with
    | .twoCursor    => s.countReg
    | .countTracked => s.countReg + p.wAcc.toNat - c.popAcc.toNat - p.drop.toNat := rfl
@[simp] theorem edge_resetSeen (s : State) (d : Elem) (p : ProducerSignals) (c : ConsumerSignals) : (s.edge d p c).resetSeen = s.resetSeen := rfl
@[simp] theorem edge_faulted (s : State) (d : Elem) (p : ProducerSignals) (c : ConsumerSignals) : (s.edge d p c).faulted = s.faulted := rfl
@[simp] theorem edge_refused (s : State) (d : Elem) (p : ProducerSignals) (c : ConsumerSignals) : (s.edge d p c).refused = s.refused := rfl
@[simp] theorem edge_inputs (s : State) (d : Elem) (p : ProducerSignals) (c : ConsumerSignals) : (s.edge d p c).inputs = s.inputs := rfl
@[simp] theorem edge_wrBus (s : State) (d : Elem) (p : ProducerSignals) (c : ConsumerSignals) : (s.edge d p c).wrBus = s.wrBus := rfl
@[simp] theorem edge_out (s : State) (d : Elem) (p : ProducerSignals) (c : ConsumerSignals) : (s.edge d p c).out = s.outputs d p c := rfl
@[simp] theorem edge_draws (s : State) (d : Elem) (p : ProducerSignals) (c : ConsumerSignals) : (s.edge d p c).draws = s.draws + 1 := rfl

/-- The slots that are not live after the edge hold no value (44_cycle.md R174). -/
theorem edge_storage (s : State) (d : Elem) (p : ProducerSignals) (c : ConsumerSignals) :
    (s.edge d p c).storage = (s.stored p.wAcc d).keep (s.edge d p c).live := rfl

@[simp] theorem resetEdge_cfg (s : State) : (s.resetEdge).cfg = s.cfg := rfl
@[simp] theorem resetEdge_readIndex (s : State) : (s.resetEdge).readIndex = 0 := rfl
@[simp] theorem resetEdge_writeIndex (s : State) : (s.resetEdge).writeIndex = 0 := rfl
@[simp] theorem resetEdge_countReg (s : State) : (s.resetEdge).countReg = 0 := rfl
@[simp] theorem resetEdge_storage (s : State) : (s.resetEdge).storage = [] := rfl
@[simp] theorem resetEdge_resetSeen (s : State) : (s.resetEdge).resetSeen = true := rfl
@[simp] theorem resetEdge_faulted (s : State) : (s.resetEdge).faulted = s.faulted := rfl
@[simp] theorem resetEdge_refused (s : State) : (s.resetEdge).refused = s.refused := rfl
@[simp] theorem resetEdge_inputs (s : State) : (s.resetEdge).inputs = s.inputs := rfl
@[simp] theorem resetEdge_wrBus (s : State) : (s.resetEdge).wrBus = s.wrBus := rfl
@[simp] theorem resetEdge_out (s : State) : (s.resetEdge).out = s.resetOutputs s.wrBus := rfl
@[simp] theorem resetEdge_draws (s : State) : (s.resetEdge).draws = s.draws + 1 := rfl

@[simp] theorem powerOn_cfg (s : State) (c : Config) : (s.powerOn c).cfg = c := rfl
@[simp] theorem powerOn_readIndex (s : State) (c : Config) : (s.powerOn c).readIndex = (Config.freeValue .readIndex c.ptrW s.draws).toNat := rfl
@[simp] theorem powerOn_writeIndex (s : State) (c : Config) : (s.powerOn c).writeIndex = (Config.freeValue .writeIndex c.ptrW s.draws).toNat := rfl
@[simp] theorem powerOn_countReg (s : State) (c : Config) : (s.powerOn c).countReg = 
    match c.mode with
    | .twoCursor    => 0
    | .countTracked => (Config.freeValue .countReg c.cntW s.draws).toNat := rfl
@[simp] theorem powerOn_storage (s : State) (c : Config) : (s.powerOn c).storage = [] := rfl
@[simp] theorem powerOn_resetSeen (s : State) (c : Config) : (s.powerOn c).resetSeen = false := rfl
@[simp] theorem powerOn_faulted (s : State) (c : Config) : (s.powerOn c).faulted = none := rfl
@[simp] theorem powerOn_refused (s : State) (c : Config) : (s.powerOn c).refused = none := rfl
@[simp] theorem powerOn_inputs (s : State) (c : Config) : (s.powerOn c).inputs = s.inputs := rfl
@[simp] theorem powerOn_wrBus (s : State) (c : Config) : (s.powerOn c).wrBus = c.sample s.wrBus := rfl
@[simp] theorem powerOn_out (s : State) (c : Config) : (s.powerOn c).out = s.out := rfl
@[simp] theorem powerOn_draws (s : State) (c : Config) : (s.powerOn c).draws = s.draws + 1 := rfl

@[simp] theorem takeInput_cfg (s : State) (w : Input) (rest : List Input) : (s.takeInput w rest).cfg = s.cfg := rfl
@[simp] theorem takeInput_readIndex (s : State) (w : Input) (rest : List Input) : (s.takeInput w rest).readIndex = s.readIndex := rfl
@[simp] theorem takeInput_writeIndex (s : State) (w : Input) (rest : List Input) : (s.takeInput w rest).writeIndex = s.writeIndex := rfl
@[simp] theorem takeInput_countReg (s : State) (w : Input) (rest : List Input) : (s.takeInput w rest).countReg = s.countReg := rfl
@[simp] theorem takeInput_storage (s : State) (w : Input) (rest : List Input) : (s.takeInput w rest).storage = s.storage := rfl
@[simp] theorem takeInput_resetSeen (s : State) (w : Input) (rest : List Input) : (s.takeInput w rest).resetSeen = s.resetSeen := rfl
@[simp] theorem takeInput_faulted (s : State) (w : Input) (rest : List Input) : (s.takeInput w rest).faulted = s.faulted := rfl
@[simp] theorem takeInput_refused (s : State) (w : Input) (rest : List Input) : (s.takeInput w rest).refused = s.refused := rfl
@[simp] theorem takeInput_inputs (s : State) (w : Input) (rest : List Input) : (s.takeInput w rest).inputs = rest := rfl
@[simp] theorem takeInput_wrBus (s : State) (w : Input) (rest : List Input) : (s.takeInput w rest).wrBus = s.cfg.sample w.wrData := rfl
@[simp] theorem takeInput_out (s : State) (w : Input) (rest : List Input) : (s.takeInput w rest).out = s.out := rfl
@[simp] theorem takeInput_draws (s : State) (w : Input) (rest : List Input) : (s.takeInput w rest).draws = s.draws := rfl

@[simp] theorem withFetchWord_cfg (s : State) (n w : Nat) : (s.withFetchWord n w).cfg = s.cfg := rfl
@[simp] theorem withFetchWord_readIndex (s : State) (n w : Nat) : (s.withFetchWord n w).readIndex = s.readIndex := rfl
@[simp] theorem withFetchWord_writeIndex (s : State) (n w : Nat) : (s.withFetchWord n w).writeIndex = s.writeIndex := rfl
@[simp] theorem withFetchWord_countReg (s : State) (n w : Nat) : (s.withFetchWord n w).countReg = s.countReg := rfl
@[simp] theorem withFetchWord_storage (s : State) (n w : Nat) : (s.withFetchWord n w).storage = s.storage := rfl
@[simp] theorem withFetchWord_resetSeen (s : State) (n w : Nat) : (s.withFetchWord n w).resetSeen = s.resetSeen := rfl
@[simp] theorem withFetchWord_faulted (s : State) (n w : Nat) : (s.withFetchWord n w).faulted = s.faulted := rfl
@[simp] theorem withFetchWord_refused (s : State) (n w : Nat) : (s.withFetchWord n w).refused = s.refused := rfl
@[simp] theorem withFetchWord_inputs (s : State) (n w : Nat) : (s.withFetchWord n w).inputs = inputOfWord n w :: s.inputs := rfl
@[simp] theorem withFetchWord_wrBus (s : State) (n w : Nat) : (s.withFetchWord n w).wrBus = s.wrBus := rfl
@[simp] theorem withFetchWord_out (s : State) (n w : Nat) : (s.withFetchWord n w).out = s.out := rfl
@[simp] theorem withFetchWord_draws (s : State) (n w : Nat) : (s.withFetchWord n w).draws = s.draws := rfl

@[simp] theorem outputs_empty (s : State) (d : Elem) (p : ProducerSignals) (c : ConsumerSignals) :
    (s.outputs d p c).empty = s.emptyOut := rfl
@[simp] theorem outputs_full (s : State) (d : Elem) (p : ProducerSignals) (c : ConsumerSignals) :
    (s.outputs d p c).full = s.fullOut := rfl
@[simp] theorem outputs_count (s : State) (d : Elem) (p : ProducerSignals) (c : ConsumerSignals) :
    (s.outputs d p c).count = s.countOut := rfl
@[simp] theorem outputs_wrResp (s : State) (d : Elem) (p : ProducerSignals) (c : ConsumerSignals) :
    (s.outputs d p c).wrResp = p.resp := rfl
@[simp] theorem outputs_rdResp (s : State) (d : Elem) (p : ProducerSignals) (c : ConsumerSignals) :
    (s.outputs d p c).rdResp = c.resp := rfl
@[simp] theorem outputs_rdData (s : State) (d : Elem) (p : ProducerSignals) (c : ConsumerSignals) :
    (s.outputs d p c).rdData = c.data := rfl
@[simp] theorem outputs_ramWe (s : State) (d : Elem) (p : ProducerSignals) (c : ConsumerSignals) :
    (s.outputs d p c).ramWe = p.wAcc := rfl
@[simp] theorem outputs_ramWaddr (s : State) (d : Elem) (p : ProducerSignals) (c : ConsumerSignals) :
    (s.outputs d p c).ramWaddr = s.writeIndex := rfl
@[simp] theorem outputs_ramWdata (s : State) (d : Elem) (p : ProducerSignals) (c : ConsumerSignals) :
    (s.outputs d p c).ramWdata = d := rfl
@[simp] theorem outputs_ramRaddr (s : State) (d : Elem) (p : ProducerSignals) (c : ConsumerSignals) :
    (s.outputs d p c).ramRaddr = s.readIndex := rfl

@[simp] theorem resetOutputs_empty (s : State) (d : Elem) : (s.resetOutputs d).empty = s.emptyOut := rfl
@[simp] theorem resetOutputs_full (s : State) (d : Elem) : (s.resetOutputs d).full = s.fullOut := rfl
@[simp] theorem resetOutputs_count (s : State) (d : Elem) : (s.resetOutputs d).count = s.countOut := rfl
@[simp] theorem resetOutputs_wrResp (s : State) (d : Elem) : (s.resetOutputs d).wrResp = .idle := rfl
@[simp] theorem resetOutputs_rdResp (s : State) (d : Elem) : (s.resetOutputs d).rdResp = .idle := rfl
@[simp] theorem resetOutputs_rdData (s : State) (d : Elem) : (s.resetOutputs d).rdData = s.freeRdData := rfl
@[simp] theorem resetOutputs_ramWe (s : State) (d : Elem) : (s.resetOutputs d).ramWe = false := rfl
@[simp] theorem resetOutputs_ramWaddr (s : State) (d : Elem) : (s.resetOutputs d).ramWaddr = s.writeIndex := rfl
@[simp] theorem resetOutputs_ramWdata (s : State) (d : Elem) : (s.resetOutputs d).ramWdata = d := rfl
@[simp] theorem resetOutputs_ramRaddr (s : State) (d : Elem) : (s.resetOutputs d).ramRaddr = s.readIndex := rfl

end Sys2Proof.Machine.State
end

