-- ==== Sys2Proof/Laws/Cycle.lean ====
section
/-! SUPPORT. What a cycle can do: the flags as facts about the element count, the signals the two ports can set, and what
the edge leaves of the count, the live slots, the storage and the elements held. -/

namespace Sys2Proof.Machine

/-! ## The flags -/

namespace State

theorem len_lt_of_twoCursor {s : State} (h : s.cfg.mode = .twoCursor) : s.len < s.cfg.capacity := by
  simp only [len, h]; exact s.cfg.distance_lt _ _

theorem usable_of_twoCursor {c : Config} (h : c.mode = .twoCursor) : c.usable = c.capacity - 1 := by
  simp [Config.usable, h]

theorem usable_of_countTracked {c : Config} (h : c.mode = .countTracked) : c.usable = c.capacity := by
  simp [Config.usable, h]

theorem usable_le (c : Config) : c.usable ≤ c.capacity := by
  unfold Config.usable; split <;> omega

theorem isEmpty_iff {s : State} (hr : s.readIndex < s.cfg.capacity) (hw : s.writeIndex < s.cfg.capacity) :
    s.isEmpty = true ↔ s.len = 0 := by
  unfold isEmpty len
  split
  · rw [s.cfg.distance_eq_zero hw hr, beq_iff_eq]; exact eq_comm
  · exact beq_iff_eq

theorem isFull_iff {s : State} (hr : s.readIndex < s.cfg.capacity) (hw : s.writeIndex < s.cfg.capacity) :
    s.isFull = true ↔ s.len = s.cfg.usable := by
  have hpos := s.cfg.capacity_pos
  cases hm : s.cfg.mode with
  | countTracked => simp [isFull, len, usable_of_countTracked hm, hm]
  | twoCursor =>
    simp only [isFull, len, usable_of_twoCursor hm, hm, beq_iff_eq]
    constructor
    · intro h
      rw [← h, Config.distance_advance_base _ hw hw, (Config.distance_eq_zero _ hw hw).2 rfl, if_pos rfl]
    · intro h
      have := s.cfg.advance_distance hw hr
      rw [h] at this
      rw [← this, Config.advance_advance, show s.cfg.capacity - 1 + 1 = s.cfg.capacity by omega,
        Config.advance_eq_mod, Nat.add_mod_right, Nat.mod_eq_of_lt hr]

/-- The write cursor stands `len` slots after the read cursor (10_state.md R30). -/
theorem writeIndex_eq {s : State} (hr : s.readIndex < s.cfg.capacity) (hw : s.writeIndex < s.cfg.capacity)
    (hc : s.consistent) : s.writeIndex = s.cfg.advance s.readIndex s.len := by
  cases hm : s.cfg.mode with
  | twoCursor => simp only [len, hm]; exact (s.cfg.advance_distance hw hr).symm
  | countTracked => simpa only [len, hm] using hc.1 hm

theorem live_iff {s : State} {i : Nat} :
    s.live i = true ↔ i < s.cfg.capacity ∧ s.cfg.distance i s.readIndex < s.len := by
  simp [live]

end State

/-! ## The signals -/

/-- What the two ports' signals satisfy in every cycle of a state (44_cycle.md R172, R177): the premises of R181. -/
structure SignalsFit (s : State) (wAcc popAcc drop : Bool) : Prop where
  pop_nonempty  : popAcc = true → s.isEmpty = false
  one_removed   : popAcc = true → drop = false
  drop_full     : drop = true → wAcc = true ∧ s.isFull = true
  write_fits    : wAcc = true → s.isFull = true → popAcc = true ∨ drop = true

/-- All that a consumer command's signals can be: a fault of `MemRead`, or signals of which `pop_acc` needs a nonempty
buffer. -/
theorem consumerSignals_cases (c : ConsumerCmd) (s : State) :
    (∃ x, consumerSignals c s = .ok x ∧ (x.popAcc = true → s.isEmpty = false ∧ c = .pop) ∧
      (x.resp = .ok → s.isEmpty = false ∧ s.storage.read s.readIndex = some x.data)) ∨
    (consumerSignals c s = .error .slotUnwritten ∧ s.isEmpty = false ∧ s.storage.read s.readIndex = none) := by
  cases c with
  | nopC => exact .inl ⟨_, rfl, by simp [nopCSignals], by simp [nopCSignals]⟩
  | rsvC => exact .inl ⟨_, rfl, by simp [rsvCSignals, nopCSignals], by simp [rsvCSignals, nopCSignals]⟩
  | pop =>
    cases he : s.isEmpty with
    | true => exact .inl ⟨raiseEmpty s, by simp [consumerSignals, popSignals, he], by simp [raiseEmpty], by simp [raiseEmpty]⟩
    | false =>
      cases hr : s.storage.read s.readIndex with
      | none => exact .inr ⟨by simp [consumerSignals, popSignals, he, memRead, hr], rfl, rfl⟩
      | some v =>
        exact .inl ⟨{ popAcc := true, resp := .ok, data := v }, by simp [consumerSignals, popSignals, he, memRead, hr],
          by simp, by simp⟩
  | peek =>
    cases he : s.isEmpty with
    | true => exact .inl ⟨raiseEmpty s, by simp [consumerSignals, peekSignals, he], by simp [raiseEmpty], by simp [raiseEmpty]⟩
    | false =>
      cases hr : s.storage.read s.readIndex with
      | none => exact .inr ⟨by simp [consumerSignals, peekSignals, he, memRead, hr], rfl, rfl⟩
      | some v =>
        exact .inl ⟨{ popAcc := false, resp := .ok, data := v }, by simp [consumerSignals, peekSignals, he, memRead, hr],
          by simp, by simp⟩

/-- The signals of any two commands fit. -/
theorem signalsFit (p : ProducerCmd) {s : State} {popAcc : Bool} (h : popAcc = true → s.isEmpty = false) :
    SignalsFit s (producerSignals p s popAcc).wAcc popAcc (producerSignals p s popAcc).drop := by
  cases p <;> cases hf : s.isFull <;> cases popAcc <;> constructor <;>
    simp_all [producerSignals, nopPSignals, rsvPSignals, pushSignals, pushOvwSignals, raiseFull]

/-! ## The edge -/

/-- The count after the edge (44_cycle.md R181), with the facts the other laws of the edge rest on. -/
theorem edge_len {s : State} (hr : s.readIndex < s.cfg.capacity) (hw : s.writeIndex < s.cfg.capacity)
    (hc : s.consistent) (d : Elem) {p : ProducerSignals} {c : ConsumerSignals}
    (fit : SignalsFit s p.wAcc c.popAcc p.drop) :
    (s.edge d p c).len = s.len + p.wAcc.toNat - (c.popAcc.toNat + p.drop.toNat) ∧
    c.popAcc.toNat + p.drop.toNat ≤ s.len + p.wAcc.toNat ∧
    c.popAcc.toNat + p.drop.toNat ≤ 1 ∧
    (s.edge d p c).len ≤ s.cfg.usable ∧
    (p.wAcc = true → s.len = s.cfg.capacity → c.popAcc.toNat + p.drop.toNat = 1) := by
  have hE := State.isEmpty_iff hr hw
  have hF := State.isFull_iff hr hw
  have hu := State.usable_le s.cfg
  have hlen := hc.2.1
  have hm1 : c.popAcc.toNat + p.drop.toNat ≤ 1 := by
    have := fit.one_removed
    cases hp : c.popAcc <;> cases hd : p.drop <;> simp_all
  have hm2 : c.popAcc.toNat + p.drop.toNat ≤ s.len + p.wAcc.toNat := by
    have h1 := fit.pop_nonempty
    have h3 := fit.drop_full
    cases hp : c.popAcc <;> cases hd : p.drop <;> cases hwa : p.wAcc <;> simp_all
    omega
  have hbound : s.len + p.wAcc.toNat - (c.popAcc.toNat + p.drop.toNat) ≤ s.cfg.usable := by
    have h4 := fit.write_fits
    cases hp : c.popAcc <;> cases hd : p.drop <;> cases hwa : p.wAcc <;> simp_all <;> omega
  have hcap : p.wAcc = true → s.len = s.cfg.capacity → c.popAcc.toNat + p.drop.toNat = 1 := by
    intro h1 h2
    have h3 : s.isFull = true := hF.2 (by omega)
    rcases fit.write_fits h1 h3 with h | h <;> rw [h] at hm1 ⊢ <;> simp at hm1 ⊢ <;> omega
  have hval : (s.edge d p c).len = s.len + p.wAcc.toNat - (c.popAcc.toNat + p.drop.toNat) := by
    cases hm : s.cfg.mode with
    | countTracked => simp only [State.len, State.edge_cfg, State.edge_countReg, hm]; omega
    | twoCursor =>
      have hl := State.len_lt_of_twoCursor hm
      rw [State.usable_of_twoCursor hm] at hbound
      have hwe := State.writeIndex_eq hr hw hc
      have hgoal : (s.edge d p c).len =
          s.cfg.distance (s.cfg.advance s.writeIndex p.wAcc.toNat)
            (s.cfg.advance s.readIndex (c.popAcc.toNat + p.drop.toNat)) := by
        simp [State.len, hm]
      rw [hgoal, hwe, Config.advance_advance]
      have hsplit : s.len + p.wAcc.toNat =
          (c.popAcc.toNat + p.drop.toNat) + (s.len + p.wAcc.toNat - (c.popAcc.toNat + p.drop.toNat)) := by omega
      rw [hsplit, ← Config.advance_advance, Config.distance_advance _ (Config.advance_lt _ _ _) (by omega)]
      omega
  exact ⟨hval, hm2, hm1, by rw [hval]; exact hbound, hcap⟩

/-- The write cursor after the edge stands the new count after the read cursor. -/
theorem edge_writeIndex {s : State} (hr : s.readIndex < s.cfg.capacity) (hw : s.writeIndex < s.cfg.capacity)
    (hc : s.consistent) (d : Elem) {p : ProducerSignals} {c : ConsumerSignals}
    (fit : SignalsFit s p.wAcc c.popAcc p.drop) :
    (s.edge d p c).writeIndex = s.cfg.advance (s.edge d p c).readIndex (s.edge d p c).len := by
  obtain ⟨hval, h2, -, -, -⟩ := edge_len hr hw hc d fit
  rw [hval, State.edge_writeIndex, State.edge_readIndex, State.writeIndex_eq hr hw hc, Config.advance_advance,
    Config.advance_advance]
  congr 1; omega

/-- The `k`-th slot after the read cursor, once the edge has moved it. -/
theorem edge_slot (s : State) (d : Elem) (p : ProducerSignals) (c : ConsumerSignals) (k : Nat) :
    s.cfg.advance (s.edge d p c).readIndex k = s.cfg.advance s.readIndex (c.popAcc.toNat + p.drop.toNat + k) := by
  rw [State.edge_readIndex, Config.advance_advance]

/-- Among the first `len` slots after the read cursor only a full circle meets the write cursor again. -/
theorem slot_eq_writeIndex {s : State} (hr : s.readIndex < s.cfg.capacity) (hw : s.writeIndex < s.cfg.capacity)
    (hc : s.consistent) {k : Nat} (hk : k ≤ s.len) (hfull : s.len = s.cfg.capacity → k ≠ 0) :
    s.cfg.advance s.readIndex k = s.writeIndex ↔ k = s.len := by
  have hle := hc.2.1
  have hu := State.usable_le s.cfg
  rw [State.writeIndex_eq hr hw hc]
  constructor
  · intro h
    have hk' : k < s.cfg.capacity ∨ k = s.cfg.capacity := by omega
    have hl' : s.len < s.cfg.capacity ∨ s.len = s.cfg.capacity := by omega
    rcases hl' with hl | hl
    · have h1 := s.cfg.distance_advance hr (show k < s.cfg.capacity by omega)
      have h2 := s.cfg.distance_advance hr hl
      rw [h] at h1; omega
    · rcases hk' with hk1 | hk1
      · have h1 := s.cfg.distance_advance hr hk1
        have h2 : s.cfg.advance s.readIndex s.len = s.readIndex := by
          rw [hl, Config.advance_eq_mod, Nat.add_mod_right, Nat.mod_eq_of_lt hr]
        rw [h, h2, (s.cfg.distance_eq_zero hr hr).2 rfl] at h1
        exact absurd h1.symm (hfull hl)
      · omega
  · rintro rfl; rfl

/-- What the `k`-th live slot holds after the edge: the accepted element if it is the newest, else what the slot held
before (44_cycle.md R174). -/
theorem edge_read_slot {s : State} (hr : s.readIndex < s.cfg.capacity) (hw : s.writeIndex < s.cfg.capacity)
    (hc : s.consistent) (d : Elem) {p : ProducerSignals} {c : ConsumerSignals}
    (fit : SignalsFit s p.wAcc c.popAcc p.drop) {k : Nat} (hk : k < (s.edge d p c).len) :
    (s.edge d p c).storage.read (s.cfg.advance (s.edge d p c).readIndex k) =
      if p.wAcc = true ∧ c.popAcc.toNat + p.drop.toNat + k = s.len then some d
      else s.storage.read (s.cfg.advance s.readIndex (c.popAcc.toNat + p.drop.toNat + k)) := by
  obtain ⟨hval, h2, h1, hb, hcap⟩ := edge_len hr hw hc d fit
  have hu := State.usable_le s.cfg
  have hlive : (s.edge d p c).live (s.cfg.advance (s.edge d p c).readIndex k) = true := by
    refine State.live_iff.2 ⟨Config.advance_lt _ _ _, ?_⟩
    simp only [State.edge_cfg]
    have hr' : (s.edge d p c).readIndex < s.cfg.capacity := Config.advance_lt _ _ _
    rw [Config.distance_advance _ hr' (by omega)]
    exact hk
  rw [State.edge_storage, Memory.read_keep, if_pos hlive, edge_slot]
  cases hwa : p.wAcc with
  | false => simp [State.stored]
  | true =>
    rw [hwa] at hval
    simp only [State.stored, if_true, Memory.read_write, true_and]
    have hkey := slot_eq_writeIndex hr hw hc (k := c.popAcc.toNat + p.drop.toNat + k)
      (by simp only [Bool.toNat_true] at hval; omega) (by intro hl; have := hcap hwa hl; omega)
    simp only [hkey]

/-- The states a cycle starts from, once reset: the part of the invariant the laws of the edge use. -/
theorem State.inv.ready {s : State} (h : s.inv) (hs : s.resetSeen = true) :
    s.readIndex < s.cfg.capacity ∧ s.writeIndex < s.cfg.capacity ∧ s.consistent :=
  ⟨h.2.1, h.2.2.1, h.2.2.2.2.2.2.2.2 hs⟩

/-- Every live slot holds a value. -/
theorem State.consistent.read_live {s : State} (hr : s.readIndex < s.cfg.capacity) (hc : s.consistent) {k : Nat}
    (hk : k < s.len) : ∃ v, s.storage.read (s.cfg.advance s.readIndex k) = some v := by
  have hle := hc.2.1
  have hu := State.usable_le s.cfg
  have h := hc.2.2 _ (s.cfg.advance_lt s.readIndex k)
  have hl : s.live (s.cfg.advance s.readIndex k) = true :=
    State.live_iff.2 ⟨s.cfg.advance_lt _ _, by rw [Config.distance_advance _ hr (by omega)]; exact hk⟩
  rw [hl] at h
  exact Option.isSome_iff_exists.1 h

/-- A slot that is not live holds no value. -/
theorem edge_read_dead (s : State) (d : Elem) (p : ProducerSignals) (c : ConsumerSignals) {i : Nat}
    (h : (s.edge d p c).live i = false) : (s.edge d p c).storage.read i = none := by
  rw [State.edge_storage, Memory.read_keep, h]; rfl

/-- The edge keeps 10_state.md R30 and R31 (44_cycle.md R181). -/
theorem edge_consistent {s : State} (hr : s.readIndex < s.cfg.capacity) (hw : s.writeIndex < s.cfg.capacity)
    (hc : s.consistent) (d : Elem) {p : ProducerSignals} {c : ConsumerSignals}
    (fit : SignalsFit s p.wAcc c.popAcc p.drop) : (s.edge d p c).consistent := by
  obtain ⟨hval, h2, h1, hb, hcap⟩ := edge_len hr hw hc d fit
  have hu := State.usable_le s.cfg
  refine ⟨?_, hb, ?_⟩
  · intro hm
    have h := edge_writeIndex hr hw hc d fit
    simp only [State.edge_cfg] at hm
    have hl : (s.edge d p c).len = (s.edge d p c).countReg := by simp [State.len, hm]
    rw [hl] at h; exact h
  · intro i hi
    cases hl : (s.edge d p c).live i with
    | false => rw [edge_read_dead s d p c hl]; rfl
    | true =>
      obtain ⟨-, hd⟩ := State.live_iff.1 hl
      simp only [State.edge_cfg] at hi hd
      have hr' : (s.edge d p c).readIndex < s.cfg.capacity := Config.advance_lt _ _ _
      have hi' := s.cfg.advance_distance hi hr'
      rw [← hi', edge_read_slot hr hw hc d fit hd]
      split
      · rfl
      · rename_i hne
        obtain ⟨v, hv⟩ := hc.read_live hr (k := c.popAcc.toNat + p.drop.toNat + s.cfg.distance i (s.edge d p c).readIndex)
          (by
            cases hwa : p.wAcc with
            | false => rw [hwa] at hval; simp only [Bool.toNat_false] at hval; omega
            | true =>
              rw [hwa] at hval hne
              simp only [Bool.toNat_true, true_and] at hval hne
              omega)
        rw [hv]; rfl

/-! ## The elements held -/

/-- The elements held, as a map over their places. -/
theorem contents_eq_map {s : State} (hr : s.readIndex < s.cfg.capacity) (hc : s.consistent) :
    s.contents = (List.range s.len).map (fun k => (s.storage.read (s.cfg.advance s.readIndex k)).getD 0) := by
  unfold State.contents
  rw [← List.filterMap_eq_map]
  apply List.filterMap_congr
  intro k hk
  obtain ⟨v, hv⟩ := hc.read_live hr (List.mem_range.1 hk)
  simp [hv]

theorem contents_length {s : State} (hr : s.readIndex < s.cfg.capacity) (hc : s.consistent) :
    s.contents.length = s.len := by
  rw [contents_eq_map hr hc, List.length_map, List.length_range]

theorem contents_getElem? {s : State} (hr : s.readIndex < s.cfg.capacity) (hc : s.consistent) {k : Nat}
    (hk : k < s.len) : s.contents[k]? = s.storage.read (s.cfg.advance s.readIndex k) := by
  obtain ⟨v, hv⟩ := hc.read_live hr hk
  rw [contents_eq_map hr hc, List.getElem?_map, List.getElem?_range hk]
  simp [hv]

/-- The oldest element stands in slot `read_index`. -/
theorem contents_head? {s : State} (hr : s.readIndex < s.cfg.capacity) (hc : s.consistent) (hl : 0 < s.len) :
    s.contents.head? = s.storage.read s.readIndex := by
  rw [List.head?_eq_getElem?, contents_getElem? hr hc hl, Config.advance_zero _ hr]

/-- The elements held after the edge: the accepted element joins at the end, a removed one leaves at the front
(44_cycle.md R181, R182). -/
theorem edge_contents {s : State} (hr : s.readIndex < s.cfg.capacity) (hw : s.writeIndex < s.cfg.capacity)
    (hc : s.consistent) (d : Elem) {p : ProducerSignals} {c : ConsumerSignals}
    (fit : SignalsFit s p.wAcc c.popAcc p.drop) :
    (s.edge d p c).contents =
      (s.contents ++ if p.wAcc then [d] else []).drop (c.popAcc.toNat + p.drop.toNat) := by
  obtain ⟨hval, h2, h1, hb, hcap⟩ := edge_len hr hw hc d fit
  have hc' := edge_consistent hr hw hc d fit
  have hr' : (s.edge d p c).readIndex < s.cfg.capacity := Config.advance_lt _ _ _
  have hlen := contents_length hr hc
  have hlen' := contents_length (s := s.edge d p c) hr' hc'
  apply List.ext_getElem?
  intro k
  rw [List.getElem?_drop]
  by_cases hk : k < (s.edge d p c).len
  · rw [contents_getElem? (s := s.edge d p c) hr' hc' hk]
    simp only [State.edge_cfg]
    rw [edge_read_slot hr hw hc d fit hk]
    cases hwa : p.wAcc with
    | false =>
      rw [hwa] at hval
      simp only [Bool.toNat_false] at hval
      simp only [Bool.false_eq_true, false_and, if_false, List.append_nil]
      exact (contents_getElem? hr hc (by omega)).symm
    | true =>
      rw [hwa] at hval
      simp only [Bool.toNat_true] at hval
      simp only [true_and, if_true]
      split
      · rename_i he; rw [he, ← hlen]; simp
      · rw [List.getElem?_append_left (by omega)]
        exact (contents_getElem? hr hc (by omega)).symm
  · rw [List.getElem?_eq_none (by omega), List.getElem?_eq_none]
    cases hwa : p.wAcc <;> rw [hwa] at hval <;> simp at hval ⊢ <;> omega

end Sys2Proof.Machine
end

