-- ==== Sys2Proof/Laws/Invariant.lean ====
section
/-! SUPPORT. The three updates that make a new state keep the invariant: the edge of a cycle, the edge of a RESET cycle,
and elaboration. And the storage is determined by the elements held. -/

namespace Sys2Proof.Machine

theorem sample_lt (c : Config) (d : Nat) : c.sample d < 2 ^ c.dataW := Nat.mod_lt _ (Nat.two_pow_pos _)

theorem sample_of_fits {c : Config} {d : Nat} (h : d < 2 ^ c.dataW) : c.sample d = d := Nat.mod_eq_of_lt h

/-- A free value fits its width. -/
theorem freeRdData_lt (s : State) : s.freeRdData < 2 ^ s.cfg.dataW := BitVec.isLt _

/-- Every slot that holds a value is a slot of the buffer and its element has DATA_W bits, after the edge. -/
theorem edge_cells {s : State} (hw : s.writeIndex < s.cfg.capacity)
    (hcells : ∀ cell ∈ s.storage, cell.1 < s.cfg.capacity ∧ cell.2 < 2 ^ s.cfg.dataW)
    {d : Elem} (hd : d < 2 ^ s.cfg.dataW) (p : ProducerSignals) (c : ConsumerSignals) :
    ∀ cell ∈ (s.edge d p c).storage, cell.1 < s.cfg.capacity ∧ cell.2 < 2 ^ s.cfg.dataW := by
  intro cell hc
  rw [State.edge_storage] at hc
  have hc := (Memory.mem_keep.1 hc).1
  unfold State.stored at hc
  split at hc
  · rcases Memory.mem_write hc with h | h
    · rw [h]; exact ⟨hw, hd⟩
    · exact hcells cell h
  · exact hcells cell hc

/-- The edge keeps the canonical form of the storage. -/
theorem edge_wf {s : State} (h : s.storage.wf) (d : Elem) (p : ProducerSignals) (c : ConsumerSignals) :
    (s.edge d p c).storage.wf := by
  rw [State.edge_storage]
  apply Memory.wf_keep
  unfold State.stored
  split
  · exact Memory.wf_write h _ _
  · exact h

/-- The edge of a cycle keeps the invariant (44_cycle.md R181). -/
theorem edge_inv {s : State} (h : s.inv) (hs : s.resetSeen = true) {d : Elem} (hd : d < 2 ^ s.cfg.dataW)
    {p : ProducerSignals} {c : ConsumerSignals} (fit : SignalsFit s p.wAcc c.popAcc p.drop) :
    (s.edge d p c).inv := by
  obtain ⟨hr, hw, hc⟩ := h.ready hs
  obtain ⟨hlegal, -, -, htc, hct, hwf, hcells, hbus, -⟩ := h
  have hcons := edge_consistent hr hw hc d fit
  refine ⟨hlegal, Config.advance_lt _ _ _, Config.advance_lt _ _ _, ?_, ?_, edge_wf hwf d p c,
    edge_cells hw hcells hd p c, hbus, fun _ => hcons⟩
  · intro hm
    simp only [State.edge_cfg] at hm
    simp only [State.edge_countReg, hm]
    exact htc hm
  · intro hm
    simp only [State.edge_cfg] at hm
    have h1 := hcons.2.1
    have h2 : (s.edge d p c).len = (s.edge d p c).countReg := by simp [State.len, hm]
    rw [h2] at h1
    have h3 := State.usable_le s.cfg
    have h4 := s.cfg.capacity_lt_cntW
    simp only [State.edge_cfg] at h1 ⊢
    omega

/-- After a RESET cycle the buffer is empty and consistent (10_state.md R34). -/
theorem resetEdge_len (s : State) : s.resetEdge.len = 0 := by
  cases hm : s.cfg.mode with
  | twoCursor => simp [State.len, hm, (s.cfg.distance_eq_zero s.cfg.capacity_pos s.cfg.capacity_pos).2]
  | countTracked => simp [State.len, hm]

theorem resetEdge_consistent (s : State) : s.resetEdge.consistent := by
  refine ⟨?_, ?_, ?_⟩
  · intro _; simp [Config.advance_zero _ s.cfg.capacity_pos]
  · rw [resetEdge_len]; omega
  · intro i _
    have : s.resetEdge.live i = false := by
      rw [← Bool.not_eq_true, State.live_iff, resetEdge_len]; omega
    rw [this]; rfl

/-- A RESET cycle makes the invariant hold again of a legal instance. -/
theorem resetEdge_inv {s : State} (hl : s.cfg.legal) (hb : s.wrBus < 2 ^ s.cfg.dataW) : s.resetEdge.inv := by
  refine ⟨hl, s.cfg.capacity_pos, s.cfg.capacity_pos, fun _ => rfl, fun _ => Nat.two_pow_pos _, ?_, ?_, hb,
    fun _ => resetEdge_consistent s⟩
  · exact List.Pairwise.nil
  · intro cell hc; cases hc

/-- An instance at power-on satisfies the invariant, whatever its registers hold. -/
theorem powerOn_inv (s : State) {c : Config} (hl : c.legal) : (s.powerOn c).inv := by
  refine ⟨hl, ?_, ?_, ?_, ?_, List.Pairwise.nil, ?_, sample_lt c _, ?_⟩
  · simp only [State.powerOn_cfg, State.powerOn_readIndex, Config.capacity_eq]; exact BitVec.isLt _
  · simp only [State.powerOn_cfg, State.powerOn_writeIndex, Config.capacity_eq]; exact BitVec.isLt _
  · intro hm
    simp only [State.powerOn_cfg] at hm
    simp [hm]
  · intro hm
    simp only [State.powerOn_cfg] at hm
    simp only [State.powerOn_countReg, hm, State.powerOn_cfg]
    exact BitVec.isLt _
  · intro cell hc; cases hc
  · intro h; cases h

/-- The configuration NEW accepts is legal and has the parameters it was given. -/
theorem elaborate_ok {p : NewParams} {c : Config} (h : elaborate p = .ok c) :
    c.legal ∧ c.reqCapacity = p.reqCapacity ∧ c.dataW = p.dataW := by
  unfold elaborate at h
  split_ifs at h with h1 h2
  split at h
  · dsimp only at h
    split_ifs at h
    cases h
    exact ⟨⟨by simp only; omega, by simp only; omega⟩, rfl, rfl⟩
  · cases h
  · cases h

/-- Two consistent states with the same registers that hold the same elements have the same storage. -/
theorem storage_eq_of_contents {s t : State} (hs : s.inv) (ht : t.inv) (hsr : s.resetSeen = true)
    (htr : t.resetSeen = true) (hcfg : s.cfg = t.cfg) (hri : s.readIndex = t.readIndex) (hlen : s.len = t.len)
    (hcont : s.contents = t.contents) : s.storage = t.storage := by
  obtain ⟨hr, hw, hc⟩ := hs.ready hsr
  obtain ⟨hr', hw', hc'⟩ := ht.ready htr
  have key : ∀ (a : State), a.inv → a.resetSeen = true → ∀ i,
      a.storage.read i =
        if i < a.cfg.capacity ∧ a.cfg.distance i a.readIndex < a.len then
          a.contents[a.cfg.distance i a.readIndex]? else none := by
    intro a ha har i
    obtain ⟨hra, hwa, hca⟩ := ha.ready har
    split
    · rename_i h
      rw [contents_getElem? hra hca h.2, Config.advance_distance _ h.1 hra]
    · rename_i h
      by_cases hi : i < a.cfg.capacity
      · have hdead : a.live i = false := by
          rw [← Bool.not_eq_true, State.live_iff]; exact h
        have := hca.2.2 i hi
        rw [hdead] at this
        simpa using this
      · cases hread : a.storage.read i with
        | none => rfl
        | some v => exact absurd (ha.2.2.2.2.2.2.1 _ (Memory.mem_of_read hread)).1 hi
  apply Memory.eq_of_read_eq hs.2.2.2.2.2.1 ht.2.2.2.2.2.1
  intro i
  rw [key s hs hsr, key t ht htr, hcfg, hri, hlen, hcont]

/-- Once reset, the status outputs follow the rules of 43_status.md. -/
theorem emptyOut_eq {s : State} (hs : s.resetSeen = true) : s.emptyOut = s.emptyByRule := by
  rw [State.emptyOut, if_pos hs]
  cases h : s.cfg.mode <;> rw [State.isEmpty, State.emptyByRule, h] <;> rfl

theorem fullOut_eq {s : State} (hs : s.resetSeen = true) : s.fullOut = s.fullByRule := by
  rw [State.fullOut, if_pos hs]
  cases h : s.cfg.mode <;> rw [State.isFull, State.fullByRule, h, Config.advance_eq_mod] <;> rfl

theorem countOut_eq {s : State} (hs : s.resetSeen = true) : s.countOut = s.lenByRule := by
  rw [State.countOut, if_pos hs]
  cases h : s.cfg.mode <;> rw [State.len, State.lenByRule, h, Config.distance_eq_mod]

/-- An edge whose signals change nothing leaves the hardware's part of the state as it was. -/
theorem edge_quiet {s : State} (h : s.inv) (hs : s.resetSeen = true) (d : Elem) {p : ProducerSignals} {c : ConsumerSignals}
    (h1 : p.wAcc = false) (h2 : p.drop = false) (h3 : c.popAcc = false) : (s.edge d p c).arch = s.arch := by
  obtain ⟨hr, hw, hc⟩ := h.ready hs
  have hreg : s.advanceRegs false false false = s := by
    unfold State.advanceRegs
    simp only [Bool.toNat_false, Nat.add_zero, Config.advance_zero _ hr, Config.advance_zero _ hw, Nat.sub_zero]
    cases hm : s.cfg.mode <;> rfl
  have hst : (s.edge d p c).storage = s.storage := by
    apply Memory.eq_of_read_eq (edge_wf h.2.2.2.2.2.1 d p c) h.2.2.2.2.2.1
    intro i
    have hl : (s.edge d p c).live = s.live := by
      show (s.advanceRegs p.wAcc c.popAcc p.drop).live = _
      rw [h1, h2, h3, hreg]
    rw [State.edge_storage, Memory.read_keep, hl]
    simp only [State.stored, h1, Bool.false_eq_true, if_false]
    split
    · rfl
    · rename_i hdead
      by_cases hi : i < s.cfg.capacity
      · have := hc.2.2 i hi
        simp only [Bool.not_eq_true] at hdead
        rw [hdead] at this
        exact (by simpa using this : s.storage.read i = none).symm
      · cases hread : s.storage.read i with
        | none => rfl
        | some v => exact absurd (h.2.2.2.2.2.2.1 _ (Memory.mem_of_read hread)).1 hi
  simp only [State.arch, hst, Arch.mk.injEq, State.edge_cfg, State.edge_resetSeen, true_and, and_true, State.edge_readIndex, State.edge_writeIndex, State.edge_countReg, h1, h2, h3]
  refine ⟨Config.advance_zero _ hr, Config.advance_zero _ hw, ?_⟩
  cases hm : s.cfg.mode <;> rfl

/-- What every slot reads as after the edge: the accepted element in slot `write_index` (unless it is lost at once), no value in
the slot of an element removed, and what it held before anywhere else. -/
theorem edge_read {s : State} (h : s.inv) (hs : s.resetSeen = true) (d : Elem) {p : ProducerSignals} {c : ConsumerSignals}
    (fit : SignalsFit s p.wAcc c.popAcc p.drop) (a : Nat) :
    (s.edge d p c).storage.read a = if (p.wAcc = true ∧ a = s.writeIndex) then (if 0 < (s.edge d p c).len then some d else none)
      else if (c.popAcc = true ∨ p.drop = true) ∧ a = s.readIndex then none else s.storage.read a := by
  obtain ⟨hr, hw, hc⟩ := h.ready hs
  obtain ⟨hval, h2, h1, hb, hcap⟩ := edge_len hr hw hc d fit
  have hu := State.usable_le s.cfg
  have hlen := hc.2.1
  have hwe := edge_writeIndex hr hw hc d fit
  have hc' := edge_consistent hr hw hc d fit
  have hr' : (s.edge d p c).readIndex < s.cfg.capacity := Config.advance_lt _ _ _
  have hpos := s.cfg.capacity_pos
  by_cases ha : a < s.cfg.capacity
  · have hk := s.cfg.distance_lt a (s.edge d p c).readIndex
    have hak := s.cfg.advance_distance ha hr'
    have hwd : s.cfg.distance s.writeIndex s.readIndex = if s.len = s.cfg.capacity then 0 else s.len := by
      rw [State.writeIndex_eq hr hw hc]
      split
      · rename_i hl
        rw [hl, (s.cfg.distance_eq_zero (Config.advance_lt _ _ _) hr).2]
        rw [Config.advance_eq_mod, Nat.add_mod_right, Nat.mod_eq_of_lt hr]
      · exact s.cfg.distance_advance hr (by omega)
    have hda : a = s.writeIndex ↔ s.cfg.distance a s.readIndex = s.cfg.distance s.writeIndex s.readIndex := by
      constructor
      · rintro rfl; rfl
      · intro he
        rw [← s.cfg.advance_distance ha hr, he, s.cfg.advance_distance hw hr]
    have hra : a = s.readIndex ↔ s.cfg.distance a s.readIndex = 0 := by
      rw [s.cfg.distance_eq_zero ha hr]
    have hdist : s.cfg.distance a (s.edge d p c).readIndex =
        if c.popAcc.toNat + p.drop.toNat = 0 then s.cfg.distance a s.readIndex
        else if s.cfg.distance a s.readIndex = 0 then s.cfg.capacity - 1 else s.cfg.distance a s.readIndex - 1 := by
      rw [State.edge_readIndex]
      split
      · rename_i h0; rw [h0, Config.advance_zero _ hr]
      · rw [show c.popAcc.toNat + p.drop.toNat = 1 by omega, Config.distance_advance_base _ ha hr]
    have hdlt := s.cfg.distance_lt a s.readIndex
    have hlive : (s.edge d p c).live a = decide (s.cfg.distance a (s.edge d p c).readIndex < (s.edge d p c).len) := by
      simp only [State.live, State.edge_cfg, ha, decide_true, Bool.true_and]; rfl
    have hm : (c.popAcc = true ∨ p.drop = true) ↔ c.popAcc.toNat + p.drop.toNat = 1 := by
      cases hpp : c.popAcc <;> cases hdd : p.drop <;> simp [hpp, hdd] at h1 ⊢
    have hold : s.storage.read a = none ∨ s.cfg.distance a s.readIndex < s.len := by
      by_cases hl : s.cfg.distance a s.readIndex < s.len
      · exact .inr hl
      · left
        have := hc.2.2 a ha
        rw [show s.live a = false by simp [State.live, ha, hl]] at this
        simpa using this
    have hwt : p.wAcc.toNat = if p.wAcc = true then 1 else 0 := by cases p.wAcc <;> rfl
    rw [State.edge_storage, Memory.read_keep, hlive]
    simp only [decide_eq_true_eq, hm, hda, hra]
    have hst : (s.stored p.wAcc d).read a = if p.wAcc = true ∧ s.cfg.distance a s.readIndex = s.cfg.distance s.writeIndex s.readIndex then some d else s.storage.read a := by
      unfold State.stored
      by_cases hwa : p.wAcc = true
      · simp only [hwa, if_true, Memory.read_write, hda, true_and]
      · simp [hwa]
    rw [hst, hdist, hwd, hval]
    by_cases hwa : p.wAcc = true
    · have := hcap hwa
      simp only [hwa, true_and, if_true] at hwt ⊢
      rw [hwt] at *
      split_ifs <;> first | rfl | omega | (rcases hold with h | h <;> first | exact h | exact h.symm | omega)
    · simp only [hwa] at hwt ⊢
      rw [hwt] at *
      split_ifs <;> first | rfl | omega | (rcases hold with h | h <;> first | exact h | exact h.symm | omega) | simp_all
  · have hdead : (s.edge d p c).live a = false := by simp [State.live, ha]
    rw [edge_read_dead _ _ _ _ hdead]
    have : s.storage.read a = none := by
      cases hread : s.storage.read a with
      | none => rfl
      | some v => exact absurd (h.2.2.2.2.2.2.1 _ (Memory.mem_of_read hread)).1 ha
    rw [this, if_neg (by rintro ⟨-, rfl⟩; exact ha hw)]
    split <;> rfl

end Sys2Proof.Machine
end

