-- ==== Sys2Proof/Laws/Exec.lean ====
section
/-! SUPPORT. What a cycle, an instruction and a step can answer: one lemma for each, which proofs cite in place of unfolding
them. -/

namespace Sys2Proof.Machine

/-- The signals of a cycle in which the consumer's command does not fault. -/
theorem runPair_ok {p : ProducerCmd} {c : ConsumerCmd} {s : State} {x : ConsumerSignals}
    (h : consumerSignals c s = .ok x) :
    runPair p c s = .next (s.edge (p.data s.wrBus) (producerSignals p s x.popAcc) x) := by
  simp [runPair, runCycle, h]

/-- All that a cycle can answer: the state after the edge, with signals that fit; or a fault of `MemRead`. -/
theorem runPair_cases (p : ProducerCmd) (c : ConsumerCmd) (s : State) :
    (∃ x, consumerSignals c s = .ok x ∧
      runPair p c s = .next (s.edge (p.data s.wrBus) (producerSignals p s x.popAcc) x) ∧
      SignalsFit s (producerSignals p s x.popAcc).wAcc x.popAcc (producerSignals p s x.popAcc).drop) ∨
    (runPair p c s = .fault .slotUnwritten ∧ s.isEmpty = false ∧ s.storage.read s.readIndex = none) := by
  rcases consumerSignals_cases c s with ⟨x, hx, hpop, -⟩ | ⟨hx, he, hr⟩
  · exact .inl ⟨x, hx, runPair_ok hx, signalsFit p (fun h => (hpop h).1)⟩
  · exact .inr ⟨by simp [runPair, runCycle, hx], he, hr⟩

/-- In a state of the invariant the head slot of a nonempty buffer holds a value. -/
theorem head_read {s : State} (h : s.inv) (hs : s.resetSeen = true) (he : s.isEmpty = false) :
    ∃ v, s.storage.read s.readIndex = some v := by
  obtain ⟨hr, hw, hc⟩ := h.ready hs
  have hl : 0 < s.len := by
    have := State.isEmpty_iff hr hw
    rw [he] at this
    simp at this
    omega
  have := hc.read_live hr hl
  rwa [Config.advance_zero _ hr] at this

/-- From a state of the invariant a cycle answers a next state (60_exceptions.md R205). -/
theorem runPair_next (p : ProducerCmd) (c : ConsumerCmd) {s : State} (h : s.inv) (hs : s.resetSeen = true) :
    ∃ x, consumerSignals c s = .ok x ∧
      runPair p c s = .next (s.edge (p.data s.wrBus) (producerSignals p s x.popAcc) x) ∧
      SignalsFit s (producerSignals p s x.popAcc).wAcc x.popAcc (producerSignals p s x.popAcc).drop := by
  rcases runPair_cases p c s with hx | ⟨-, he, hr⟩
  · exact hx
  · obtain ⟨v, hv⟩ := head_read h hs he
    rw [hv] at hr; cases hr

/-- An instruction that has a control word is the cycle that carries it alone. -/
theorem exec_alone {i : Instr} {p : ProducerCmd} {c : ConsumerCmd} (s : State) (h : i.alone = some (.cycle p c))
    (hwf : i.wf s.cfg = true) : exec i s = whenReady s (runPair p c s) := by
  cases i <;> simp only [Instr.alone, Option.some.injEq, Decoded.cycle.injEq, reduceCtorEq] at h <;>
    obtain ⟨rfl, rfl⟩ := h
  · rfl
  · rfl
  · have h : s.cfg.hasOverwrite = true := hwf
    simp only [exec, execRsvP, whenOverwrite, h, if_true]; rfl
  · have h : s.cfg.hasOverwrite = true := by simp only [Instr.wf, Bool.and_eq_true] at hwf; exact hwf.1
    simp only [exec, execPushOvw, whenOverwrite, h, if_true]; rfl
  · rfl
  · rfl
  · rfl
  · rfl

theorem whenReady_of {s : State} (h : s.resetSeen = true) (k : Host.Outcome State Fault Refusal) :
    whenReady s k = k := by simp [whenReady, h]

/-- A producer command on its own, once reset. -/
theorem exec_producer (p : ProducerCmd) {s : State} (hs : s.resetSeen = true)
    (ho : s.cfg.hasOverwrite = true ∨ p.code.getLsbD 1 = false) :
    exec p.instr s = runPair p .nopC s := by
  cases p with
  | nopP => exact whenReady_of hs _
  | push d => exact whenReady_of hs _
  | rsvP =>
    have h : s.cfg.hasOverwrite = true := by simpa [ProducerCmd.code] using ho
    simp only [ProducerCmd.instr, exec, execRsvP, whenOverwrite, h, if_true]; exact whenReady_of hs _
  | pushOvw d =>
    have h : s.cfg.hasOverwrite = true := by simpa [ProducerCmd.code] using ho
    simp only [ProducerCmd.instr, exec, execPushOvw, whenOverwrite, h, if_true]; exact whenReady_of hs _

/-- A consumer command on its own, once reset. -/
theorem exec_consumer (c : ConsumerCmd) {s : State} (hs : s.resetSeen = true) :
    exec c.instr s = runPair .nopP c s := by
  cases c <;> exact whenReady_of hs _

/-- What the decoder can answer (30_encoding.md R74). -/
theorem decode_cases (c : Config) (w : Input) :
    (w.ctrl.rst = true ∧ decode c w = .ok .reset) ∨
    (w.ctrl.rst = false ∧ c.hasOverwrite = false ∧ w.ctrl.wrOvw = true ∧ decode c w = .error .overwriteNotConfigured) ∨
    (w.ctrl.rst = false ∧ (c.hasOverwrite = true ∨ w.ctrl.wrOvw = false) ∧
      decode c w = .ok (.cycle (decodeProducer w.ctrl.producerField (c.sample w.wrData))
        (decodeConsumer w.ctrl.consumerField))) := by
  unfold decode
  cases w.ctrl.rst <;> cases c.hasOverwrite <;> cases w.ctrl.wrOvw <;> simp

/-- The producer command a control word decodes to carries its code, and its data are what the wires carry. -/
theorem decodeProducer_spec (w : Ctrl) (d bus : Elem) (hb : bus = d) :
    (decodeProducer w.producerField d).code = w.producerField ∧
    (decodeProducer w.producerField d).data bus = d ∧
    ((decodeProducer w.producerField d).code.getLsbD 1 = w.wrOvw) := by
  subst hb
  have hcode : ∀ w : Ctrl, (decodeProducer w.producerField 0).code = w.producerField ∧
      (decodeProducer w.producerField 0).code.getLsbD 1 = w.wrOvw := by decide
  have h0 : ∀ (x : BitVec 2) (d : Elem), (decodeProducer x d).code = (decodeProducer x 0).code := by
    intro x d; unfold decodeProducer; split_ifs <;> rfl
  refine ⟨by rw [h0]; exact (hcode w).1, ?_, by rw [h0]; exact (hcode w).2⟩
  unfold decodeProducer
  split_ifs <;> rfl

/-- One step of a run that goes on is the cycle of the next control word. -/
theorem step_drives {s : State} {w : Input} {rest : List Input} (h : s.drives w rest) :
    step s = runInput w (s.takeInput w rest) := by
  obtain ⟨⟨hf, hr⟩, hi⟩ := h
  simp [step, takeStep, hf, hr, hi]

/-- All that a step can answer. -/
theorem step_cases (s : State) :
    (∃ f, s.faulted = some f ∧ step s = .fault f) ∨
    (∃ r, s.faulted = none ∧ s.refused = some r ∧ step s = .refused r) ∨
    (s.running ∧ s.inputs = [] ∧ step s = .refused .noControlWord) ∨
    (∃ w rest, s.drives w rest ∧ step s = runInput w (s.takeInput w rest)) := by
  cases hf : s.faulted with
  | some f => exact .inl ⟨f, rfl, by simp [step, takeStep, hf]⟩
  | none =>
    cases hr : s.refused with
    | some r => exact .inr (.inl ⟨r, rfl, rfl, by simp [step, takeStep, hf, hr]⟩)
    | none =>
      cases hi : s.inputs with
      | nil => exact .inr (.inr (.inl ⟨⟨hf, hr⟩, rfl, by simp [step, takeStep, hf, hr, hi]⟩))
      | cons w rest => exact .inr (.inr (.inr ⟨w, rest, ⟨⟨hf, hr⟩, hi⟩, step_drives ⟨⟨hf, hr⟩, hi⟩⟩))

/-- All that the cycle of a control word can answer (60_exceptions.md R209). -/
theorem runInput_cases (w : Input) (s : State) :
    (w.ctrl.rst = true ∧ runInput w s = .next s.resetEdge) ∨
    (w.ctrl.rst = false ∧ s.resetSeen = false ∧ runInput w s = .refused .notReset) ∨
    (w.ctrl.rst = false ∧ s.resetSeen = true ∧ s.cfg.hasOverwrite = false ∧ w.ctrl.wrOvw = true ∧
      runInput w s = .refused .overwriteNotConfigured) ∨
    (∃ p c, w.ctrl.rst = false ∧ s.resetSeen = true ∧ decode s.cfg w = .ok (.cycle p c) ∧
      runInput w s = runPair p c s) := by
  rcases decode_cases s.cfg w with ⟨h, hd⟩ | ⟨h, ho, hw, hd⟩ | ⟨h, ho, hd⟩
  · exact .inl ⟨h, by simp [runInput, hd, exec, execReset]⟩
  · cases hs : s.resetSeen with
    | false => exact .inr (.inl ⟨h, rfl, by simp [runInput, hd, whenReady, hs]⟩)
    | true => exact .inr (.inr (.inl ⟨h, rfl, ho, hw, by simp [runInput, hd, whenReady, hs]⟩))
  · cases hs : s.resetSeen with
    | false => exact .inr (.inl ⟨h, rfl, by simp [runInput, hd, whenReady, hs]⟩)
    | true => exact .inr (.inr (.inr ⟨_, _, h, rfl, hd, by simp [runInput, hd, whenReady, hs]⟩))

/-- Taking the inputs of a cycle keeps the invariant. -/
theorem takeInput_inv {s : State} (h : s.inv) (w : Input) (rest : List Input) : (s.takeInput w rest).inv := by
  obtain ⟨h1, h2, h3, h4, h5, h6, h7, -, h9⟩ := h
  exact ⟨h1, h2, h3, h4, h5, h6, h7, sample_lt s.cfg _, h9⟩

/-- A command decoded from a control word puts on `wr_data` what the wires carry. -/
theorem decode_data {c : Config} {w : Input} {p : ProducerCmd} {k : ConsumerCmd} (h : decode c w = .ok (.cycle p k)) :
    p.data (c.sample w.wrData) = c.sample w.wrData ∧ (c.hasOverwrite = true ∨ p.code.getLsbD 1 = false) := by
  rcases decode_cases c w with ⟨-, hd⟩ | ⟨-, -, -, hd⟩ | ⟨-, ho, hd⟩ <;> rw [hd] at h <;> cases h
  obtain ⟨-, h2, h3⟩ := decodeProducer_spec w.ctrl (c.sample w.wrData) (c.sample w.wrData) rfl
  exact ⟨h2, by rw [h3]; exact ho⟩

/-- Every next state of a step: the edge of a RESET cycle, or of a cycle whose two commands' signals fit. -/
theorem step_next_cases {s t : State} (h : step s = .next t) :
    ∃ w rest, s.drives w rest ∧
      ((w.ctrl.rst = true ∧ t = (s.takeInput w rest).resetEdge) ∨
       (∃ p c x, w.ctrl.rst = false ∧ s.resetSeen = true ∧ decode s.cfg w = .ok (.cycle p c) ∧
          consumerSignals c (s.takeInput w rest) = .ok x ∧
          t = (s.takeInput w rest).edge (s.cfg.sample w.wrData) (producerSignals p (s.takeInput w rest) x.popAcc) x ∧
          SignalsFit (s.takeInput w rest) (producerSignals p (s.takeInput w rest) x.popAcc).wAcc x.popAcc (producerSignals p (s.takeInput w rest) x.popAcc).drop)) := by
  rcases step_cases s with ⟨f, -, h1⟩ | ⟨r, -, -, h1⟩ | ⟨-, -, h1⟩ | ⟨w, rest, hd, h1⟩ <;> rw [h1] at h
  · cases h
  · cases h
  · cases h
  · refine ⟨w, rest, hd, ?_⟩
    rcases runInput_cases w (s.takeInput w rest) with ⟨hr, h2⟩ | ⟨-, -, h2⟩ | ⟨-, -, -, -, h2⟩ | ⟨p, c, hr, hs, hdec, h2⟩ <;> rw [h2] at h
    · cases h; exact .inl ⟨hr, rfl⟩
    · cases h
    · cases h
    · rcases runPair_cases p c (s.takeInput w rest) with ⟨x, hx, h3, fit⟩ | ⟨h3, -, -⟩ <;> rw [h3] at h
      · cases h
        have := (decode_data hdec).1
        simp only [State.takeInput_cfg] at this
        exact .inr ⟨p, c, x, hr, hs, hdec, hx, by simp only [State.takeInput_wrBus, this], fit⟩
      · cases h

/-- From a state of the invariant, a control word that spells two commands leads to the edge of their signals. -/
theorem step_cycle {s : State} {w : Input} {rest : List Input} {p c} (h : s.inv) (hs : s.resetSeen = true)
    (hd : s.drives w rest) (hdec : decode s.cfg w = .ok (.cycle p c)) :
    ∃ x, consumerSignals c (s.takeInput w rest) = .ok x ∧
      step s = .next ((s.takeInput w rest).edge (s.cfg.sample w.wrData) (producerSignals p (s.takeInput w rest) x.popAcc) x) ∧
      SignalsFit (s.takeInput w rest) (producerSignals p (s.takeInput w rest) x.popAcc).wAcc x.popAcc (producerSignals p (s.takeInput w rest) x.popAcc).drop := by
  obtain ⟨x, hx, h3, fit⟩ := runPair_next p c (takeInput_inv h w rest) hs
  refine ⟨x, hx, ?_, fit⟩
  have := (decode_data hdec).1
  rw [step_drives hd, runInput, State.takeInput_cfg, hdec]
  simp only [whenReady, State.takeInput_resetSeen, hs, if_true]
  rw [h3, State.takeInput_wrBus, this]

/-- The commands of a control word are those of its two fields. -/
theorem decode_fields {c : Config} {w : Input} {p k} (h : decode c w = .ok (.cycle p k)) :
    p = decodeProducer w.ctrl.producerField (c.sample w.wrData) ∧ k = decodeConsumer w.ctrl.consumerField ∧ w.ctrl.rst = false := by
  rcases decode_cases c w with ⟨-, hdec⟩ | ⟨-, -, -, hdec⟩ | ⟨hr, ho, hdec⟩ <;> rw [hdec] at h <;> cases h
  exact ⟨rfl, rfl, hr⟩

/-- The producer's signals in closed form, for a command decoded from a control word (44_cycle.md R177). -/
theorem producerSignals_closed {c : Config} {w : Input} {p k} (h : decode c w = .ok (.cycle p k)) (s : State) (x : Bool) :
    ((producerSignals p s x).wAcc = true ↔
      (p.isPush = true ∧ s.isFull = false) ∨ p = .pushOvw (w.wrData % 2 ^ c.dataW)) ∧
    ((producerSignals p s x).drop = true ↔ p = .pushOvw (w.wrData % 2 ^ c.dataW) ∧ s.isFull = true ∧ x = false) ∧
    (producerSignals p s x).resp =
      (if p.isPush = true then (if s.isFull = true then .full else .ok)
       else if p = .pushOvw (w.wrData % 2 ^ c.dataW) then .ok else .idle) := by
  obtain ⟨hp, -, -⟩ := decode_fields h
  have : p = .nopP ∨ p = .push (w.wrData % 2 ^ c.dataW) ∨ p = .rsvP ∨ p = .pushOvw (w.wrData % 2 ^ c.dataW) := by
    rw [hp]; unfold decodeProducer; split_ifs <;> simp [Config.sample]
  rcases this with rfl | rfl | rfl | rfl <;> cases hf : s.isFull <;> cases x <;>
    simp [producerSignals, nopPSignals, rsvPSignals, pushSignals, pushOvwSignals, raiseFull, ProducerCmd.isPush, hf]

/-- The consumer's signals in closed form (44_cycle.md R177). -/
theorem consumerSignals_closed {c : ConsumerCmd} {s : State} {x} (h : consumerSignals c s = .ok x) :
    (x.popAcc = true ↔ c = .pop ∧ s.isEmpty = false) ∧
    x.resp = (if c = .pop ∨ c = .peek then (if s.isEmpty = true then .empty else .ok) else .idle) ∧
    (x.resp = .ok → s.storage.read s.readIndex = some x.data) := by
  cases c with
  | nopC => cases h; simp [nopCSignals]
  | rsvC => cases h; simp [rsvCSignals, nopCSignals]
  | pop =>
    cases he : s.isEmpty with
    | true => simp [consumerSignals, popSignals, he] at h; subst h; simp [raiseEmpty]
    | false =>
      cases hr : s.storage.read s.readIndex <;> simp [consumerSignals, popSignals, he, memRead, hr] at h
      subst h; simp
  | peek =>
    cases he : s.isEmpty with
    | true => simp [consumerSignals, peekSignals, he] at h; subst h; simp [raiseEmpty]
    | false =>
      cases hr : s.storage.read s.readIndex <;> simp [consumerSignals, peekSignals, he, memRead, hr] at h
      subst h; simp

/-- A RESET cycle always runs (60_exceptions.md R209). -/
theorem step_reset {s : State} {w : Input} {rest : List Input} (hd : s.drives w rest) (h4 : w.ctrl.rst = true) :
    step s = .next (s.takeInput w rest).resetEdge := by
  rw [step_drives hd]
  rcases runInput_cases w (s.takeInput w rest) with ⟨-, h2⟩ | ⟨hr, -⟩ | ⟨hr, -⟩ | ⟨p, c, hr, -⟩
  · exact h2
  all_goals rw [h4] at hr; cases hr

/-- A step to a next state leaves the marks alone. -/
theorem step_marks {s t : State} (h : step s = .next t) : t.faulted = s.faulted ∧ t.refused = s.refused := by
  obtain ⟨w, rest, hd, ⟨-, rfl⟩ | ⟨p, c, x, -, hs, -, -, rfl, fit⟩⟩ := step_next_cases h <;> exact ⟨rfl, rfl⟩

/-- What two commands run together do to the elements held (44_cycle.md R172, R181). -/
theorem runPair_contents (p : ProducerCmd) (c : ConsumerCmd) {s : State} (h : s.inv) (hs : s.resetSeen = true)
    (hd : p.data s.wrBus < 2 ^ s.cfg.dataW) :
    ∃ x t, consumerSignals c s = .ok x ∧ runPair p c s = .next t ∧ t.inv ∧ t.resetSeen = true ∧
      t.cfg = s.cfg ∧ t.wrBus = s.wrBus ∧
      t.out = s.outputs (p.data s.wrBus) (producerSignals p s x.popAcc) x ∧
      t.readIndex = s.cfg.advance s.readIndex (x.popAcc.toNat + (producerSignals p s x.popAcc).drop.toNat) ∧
      t.len = s.len + (producerSignals p s x.popAcc).wAcc.toNat -
        (x.popAcc.toNat + (producerSignals p s x.popAcc).drop.toNat) ∧
      t.contents = (s.contents ++ if (producerSignals p s x.popAcc).wAcc then [p.data s.wrBus] else []).drop
        (x.popAcc.toNat + (producerSignals p s x.popAcc).drop.toNat) := by
  obtain ⟨x, hx, hrun, fit⟩ := runPair_next p c h hs
  obtain ⟨hr, hw, hc⟩ := h.ready hs
  exact ⟨x, _, hx, hrun, edge_inv h hs hd fit, hs, rfl, rfl, rfl, rfl,
    (edge_len hr hw hc _ fit).1, edge_contents hr hw hc _ fit⟩

/-- The step of a control word that spells two commands runs them together. -/
theorem step_pair {s : State} {w : Input} {rest : List Input} {p c} (hs : s.resetSeen = true) (hd : s.drives w rest)
    (hdec : decode s.cfg w = .ok (.cycle p c)) : step s = runPair p c (s.takeInput w rest) := by
  rw [step_drives hd, runInput, State.takeInput_cfg, hdec]
  exact whenReady_of hs _

/-- What a step does to the elements held. -/
theorem step_contents {s : State} {w : Input} {rest : List Input} {p c} (h : s.inv) (hs : s.resetSeen = true)
    (hd : s.drives w rest) (hdec : decode s.cfg w = .ok (.cycle p c)) :
    ∃ x t, consumerSignals c s = .ok x ∧ step s = .next t ∧ t.inv ∧ t.resetSeen = true ∧ t.cfg = s.cfg ∧
      t.inputs = rest ∧
      t.out = s.outputs (s.cfg.sample w.wrData) (producerSignals p s x.popAcc) x ∧
      t.readIndex = s.cfg.advance s.readIndex (x.popAcc.toNat + (producerSignals p s x.popAcc).drop.toNat) ∧
      t.len = s.len + (producerSignals p s x.popAcc).wAcc.toNat -
        (x.popAcc.toNat + (producerSignals p s x.popAcc).drop.toNat) ∧
      t.contents = (s.contents ++ if (producerSignals p s x.popAcc).wAcc then [s.cfg.sample w.wrData] else []).drop
        (x.popAcc.toNat + (producerSignals p s x.popAcc).drop.toNat) := by
  obtain ⟨x, hx, hstep, fit⟩ := step_cycle h hs hd hdec
  have hi := takeInput_inv h w rest
  obtain ⟨hr, hw, hc⟩ := hi.ready hs
  have hx' : consumerSignals c s = .ok x := by cases c <;> exact hx
  have hp : ∀ b, producerSignals p (s.takeInput w rest) b = producerSignals p s b := by intro b; cases p <;> rfl
  rw [hp] at hstep fit
  exact ⟨x, _, hx', hstep, edge_inv hi hs (sample_lt s.cfg w.wrData) fit, hs, rfl, rfl, rfl, rfl,
    (edge_len hr hw hc _ fit).1, edge_contents hr hw hc _ fit⟩

/-- In states of the invariant, the hardware's part is told by the configuration, `read_index` and the elements held. -/
theorem arch_eq_of_contents {s t : State} (hs : s.inv) (ht : t.inv) (hsr : s.resetSeen = true)
    (htr : t.resetSeen = true) (hcfg : s.cfg = t.cfg) (hri : s.readIndex = t.readIndex)
    (hcont : s.contents = t.contents) : s.arch = t.arch := by
  obtain ⟨hr, hw, hc⟩ := hs.ready hsr
  obtain ⟨hr', hw', hc'⟩ := ht.ready htr
  have hlen : s.len = t.len := by rw [← contents_length hr hc, ← contents_length hr' hc', hcont]
  have hst := storage_eq_of_contents hs ht hsr htr hcfg hri hlen hcont
  have hwi : s.writeIndex = t.writeIndex := by
    rw [State.writeIndex_eq hr hw hc, State.writeIndex_eq hr' hw' hc', hcfg, hri, hlen]
  have hcr : s.countReg = t.countReg := by
    cases hm : s.cfg.mode with
    | twoCursor => rw [hs.2.2.2.1 hm, ht.2.2.2.1 (by rw [← hcfg]; exact hm)]
    | countTracked =>
      have hm' : t.cfg.mode = .countTracked := by rw [← hcfg]; exact hm
      simpa [State.len, hm, hm'] using hlen
  simp only [State.arch, hcfg, hri, hwi, hcr, hst, hsr, htr]

/-- POP is the code `C = 01` (30_encoding.md R72). -/
theorem decodeConsumer_eq_pop (f : BitVec 2) : decodeConsumer f = .pop ↔ f = 0b01#2 := by
  unfold decodeConsumer; split_ifs <;> simp_all

/-- PUSH_OVW is the code `P = 11` (30_encoding.md R71). -/
theorem decodeProducer_eq_pushOvw (f : BitVec 2) (d : Elem) : decodeProducer f d = .pushOvw d ↔ f = 0b11#2 := by
  unfold decodeProducer
  have h : ∀ f : BitVec 2, ¬ f = 0#2 → ¬ f = 1#2 → ¬ f = 2#2 → f = 3#2 := by decide
  split_ifs with h0 h1 h2
  · simp_all
  · simp_all
  · simp_all
  · simp [h f h0 h1 h2]

/-- The record of a step, from the signals of its two commands. -/
theorem cycleLog_step {s t : State} {w : Input} {p : ProducerCmd} {c : ConsumerCmd} {x : ConsumerSignals}
    (hdec : decode s.cfg w = .ok (.cycle p c)) (hx : consumerSignals c s = .ok x)
    (hout : t.out = s.outputs (s.cfg.sample w.wrData) (producerSignals p s x.popAcc) x) :
    cycleLog w s t =
      { written := if (producerSignals p s x.popAcc).wAcc then [s.cfg.sample w.wrData] else []
        popped  := if x.popAcc then [x.data] else []
        dropped := (producerSignals p s x.popAcc).drop.toNat } := by
  obtain ⟨c1, c2, c3⟩ := consumerSignals_closed hx
  obtain ⟨p1, p2, p3⟩ := producerSignals_closed hdec s x.popAcc
  obtain ⟨hp, hk, -⟩ := decode_fields hdec
  have hcp : c = .pop ↔ w.ctrl.consumerField = 0b01#2 := by rw [hk, decodeConsumer_eq_pop]
  have hpo : p = .pushOvw (s.cfg.sample w.wrData) ↔ w.ctrl.producerField = 0b11#2 := by
    rw [hp, decodeProducer_eq_pushOvw]
  have hpop : (w.ctrl.consumerField = 0b01#2 ∧ x.resp = .ok) ↔ x.popAcc = true := by
    rw [← hcp, c1, c2]
    constructor
    · rintro ⟨rfl, h2⟩; simp at h2; exact ⟨rfl, by simpa using h2⟩
    · rintro ⟨rfl, h2⟩; simp [h2]
  have hdr : (w.ctrl.producerField = 0b11#2 ∧ s.isFull = true ∧ ¬ x.popAcc = true) ↔
      (producerSignals p s x.popAcc).drop = true := by
    rw [p2, ← hpo]; simp [Config.sample]
  simp only [cycleLog, hout, State.outputs_rdResp, State.outputs_rdData, State.outputs_ramWe, State.outputs_ramWdata,
    hpop, hdr]
  cases (producerSignals p s x.popAcc).drop <;> rfl

/-! What depends on the hardware's part of the state alone. -/

theorem isEmpty_of_arch {a b : State} (h : a.arch = b.arch) : a.isEmpty = b.isEmpty := by
  simp only [State.arch, Arch.mk.injEq] at h; simp [State.isEmpty, h]

theorem isFull_of_arch {a b : State} (h : a.arch = b.arch) : a.isFull = b.isFull := by
  simp only [State.arch, Arch.mk.injEq] at h; simp [State.isFull, h]

theorem len_of_arch {a b : State} (h : a.arch = b.arch) : a.len = b.len := by
  simp only [State.arch, Arch.mk.injEq] at h; simp [State.len, h]

theorem producerSignals_of_arch (p : ProducerCmd) {a b : State} (h : a.arch = b.arch) (x : Bool) :
    producerSignals p a x = producerSignals p b x := by
  cases p <;> simp [producerSignals, pushSignals, pushOvwSignals, isFull_of_arch h]

theorem consumerSignals_of_arch {c : ConsumerCmd} {a b : State} (h : a.arch = b.arch) {x : ConsumerSignals}
    (hx : consumerSignals c a = .ok x) :
    ∃ y, consumerSignals c b = .ok y ∧ y.popAcc = x.popAcc ∧ y.resp = x.resp ∧ (x.resp = .ok → y.data = x.data) := by
  have he := isEmpty_of_arch h
  have hr : a.storage.read a.readIndex = b.storage.read b.readIndex := by
    simp only [State.arch, Arch.mk.injEq] at h; simp [h]
  cases c with
  | nopC => cases hx; exact ⟨_, rfl, rfl, rfl, by simp [nopCSignals]⟩
  | rsvC => cases hx; exact ⟨_, rfl, rfl, rfl, by simp [rsvCSignals, nopCSignals]⟩
  | pop =>
    simp only [consumerSignals, popSignals, memRead, he, hr] at hx ⊢
    split at hx
    · cases hx; simp [*, raiseEmpty]
    · cases hb : b.storage.read b.readIndex <;> simp only [hb] at hx <;> cases hx
      simp [*]
  | peek =>
    simp only [consumerSignals, peekSignals, memRead, he, hr] at hx ⊢
    split at hx
    · cases hx; simp [*, raiseEmpty]
    · cases hb : b.storage.read b.readIndex <;> simp only [hb] at hx <;> cases hx
      simp [*]

theorem edge_of_arch {a b : State} (h : a.arch = b.arch) (d : Elem) (p : ProducerSignals) {x y : ConsumerSignals}
    (hp : y.popAcc = x.popAcc) : (a.edge d p x).arch = (b.edge d p y).arch := by
  obtain ⟨c1, r1, w1, k1, m1, z1, f1, g1, i1, b1, o1, d1⟩ := a
  obtain ⟨c2, r2, w2, k2, m2, z2, f2, g2, i2, b2, o2, d2⟩ := b
  simp only [State.arch, Arch.mk.injEq] at h
  obtain ⟨rfl, rfl, rfl, rfl, rfl, rfl⟩ := h
  simp only [State.arch, State.edge, hp]
  rfl

/-! A run of several steps, one step at a time. -/

theorem core_run_next (M : Host.Core) {s t : M.State} (h : M.step s = .next t) (n : Nat) : M.run (n + 1) s = M.run n t := by
  simp only [Host.Core.run, h]
theorem core_run_fault (M : Host.Core) {s : M.State} {f} (h : M.step s = .fault f) (n : Nat) : M.run (n + 1) s = .fault f := by
  simp only [Host.Core.run, h]
theorem core_run_refused (M : Host.Core) {s : M.State} {f} (h : M.step s = .refused f) (n : Nat) : M.run (n + 1) s = .refused f := by
  simp only [Host.Core.run, h]
theorem run_succ_next {s t : State} (h : step s = .next t) (n : Nat) :
    Sys2Proof.core.run (n + 1) s = Sys2Proof.core.run n t := core_run_next Sys2Proof.core h n
theorem run_succ_fault {s : State} {f : Fault} (h : step s = .fault f) (n : Nat) :
    Sys2Proof.core.run (n + 1) s = .fault f := core_run_fault Sys2Proof.core h n
theorem run_succ_refused {s : State} {r : Refusal} (h : step s = .refused r) (n : Nat) :
    Sys2Proof.core.run (n + 1) s = .refused r := core_run_refused Sys2Proof.core h n

end Sys2Proof.Machine
end

