-- ==== Sys2Proof/Laws/PerInstr.lean ====
section
/-! SUPPORT. What holds of every instruction as syntax, one lemma for each constructor of Instr: the control word of a
well-formed instruction driven alone decodes to the cycle that carries it alone (30_encoding.md R74, R84). -/

namespace Sys2Proof.Laws.RoundTrip

open Sys2Proof Sys2Proof.Machine

/-- The word of `i` driven alone decodes to the cycle that carries `i` alone. -/
def Statement (i : Instr) : Prop :=
  ∀ (c : Config) (dec : Decoded), i.wf c = true → i.alone = some dec → decode c (encodeCycle dec) = .ok dec

/-- The encoded cycle of two commands carries their codes in its two fields, and no RESET. -/
theorem encodeCycle_fields (p : ProducerCmd) (k : ConsumerCmd) :
    (encodeCycle (.cycle p k)).ctrl.rst = false ∧ (encodeCycle (.cycle p k)).ctrl.wrOvw = p.code.getLsbD 1 ∧
    (encodeCycle (.cycle p k)).ctrl.producerField = p.code ∧ (encodeCycle (.cycle p k)).ctrl.consumerField = k.code := by
  have key : ∀ a b : BitVec 2, Ctrl.rst (0#1 ++ (a ++ b)) = false ∧ Ctrl.wrOvw (0#1 ++ (a ++ b)) = a.getLsbD 1 ∧
      Ctrl.producerField (0#1 ++ (a ++ b)) = a ∧ Ctrl.consumerField (0#1 ++ (a ++ b)) = b := by decide
  exact key p.code k.code

/-- What the encoded cycle of two commands decodes to, where PUSH_OVW's codes are there. -/
theorem decode_encodeCycle (c : Config) (p : ProducerCmd) (k : ConsumerCmd)
    (h : c.hasOverwrite = true ∨ p.code.getLsbD 1 = false) :
    decode c (encodeCycle (.cycle p k)) =
      .ok (.cycle (decodeProducer p.code (c.sample (p.data 0))) (decodeConsumer k.code)) := by
  obtain ⟨h1, h2, h3, h4⟩ := encodeCycle_fields p k
  rcases decode_cases c (encodeCycle (.cycle p k)) with ⟨hr, -⟩ | ⟨-, ho, hw, -⟩ | ⟨-, -, hd⟩
  · rw [h1] at hr; cases hr
  · rw [h2] at hw; rw [ho, hw] at h; simp at h
  · rw [hd, h3, h4]; rfl

/-- A pushed element of DATA_W bits goes over the wires whole (30_encoding.md R75). -/
theorem sample_fits {c : Config} {d : Elem} (h : Elem.fits c.dataW d = true) : c.sample d = d :=
  Nat.mod_eq_of_lt (of_decide_eq_true h)

theorem nopP : Statement .nopP := by
  intro c dec _ h; cases h; exact decode_encodeCycle c _ _ (.inr rfl)

theorem push (wrData : Elem) : Statement (.push wrData) := by
  intro c dec hwf h
  cases h
  have ho : (ProducerCmd.push wrData).code.getLsbD 1 = false := by simp [ProducerCmd.code]
  rw [decode_encodeCycle c _ _ (.inr ho), show (ProducerCmd.push wrData).data 0 = wrData from rfl, sample_fits hwf]
  rfl

theorem rsvP : Statement .rsvP := by
  intro c dec hwf h; cases h; exact decode_encodeCycle c _ _ (.inl hwf)

theorem pushOvw (wrData : Elem) : Statement (.pushOvw wrData) := by
  intro c dec hwf h
  cases h
  simp only [Instr.wf, Bool.and_eq_true] at hwf
  rw [decode_encodeCycle c _ _ (.inl hwf.1), show (ProducerCmd.pushOvw wrData).data 0 = wrData from rfl,
    sample_fits hwf.2]
  rfl

theorem nopC : Statement .nopC := by
  intro c dec _ h; cases h; exact decode_encodeCycle c _ _ (.inr rfl)

theorem pop : Statement .pop := by
  intro c dec _ h; cases h; exact decode_encodeCycle c _ _ (.inr rfl)

theorem rsvC : Statement .rsvC := by
  intro c dec _ h; cases h; exact decode_encodeCycle c _ _ (.inr rfl)

theorem peek : Statement .peek := by
  intro c dec _ h; cases h; exact decode_encodeCycle c _ _ (.inr rfl)

theorem reset : Statement .reset := by
  intro c dec _ h; cases h; rfl

theorem isEmpty : Statement .isEmpty := by
  intro c dec _ h; cases h

theorem isFull : Statement .isFull := by
  intro c dec _ h; cases h

theorem len : Statement .len := by
  intro c dec _ h; cases h

theorem new (params : NewParams) : Statement (.new params) := by
  intro c dec _ h; cases h

end Sys2Proof.Laws.RoundTrip
end

