-- ==== Sys2Proof/Tests/Slice0.lean ====
section
/-! SUPPORT. The model's own tests: well-formedness, words written out from 30_encoding.md, single steps from the vectors of
95_test_vectors.md (V<n> and the tables of its part 2), and for every statement with hypotheses a state that meets them. -/

namespace Sys2Proof.Tests

open Sys2Proof Sys2Proof.Machine

/-! ## Small states and views -/

/-- A configuration of 8-bit elements. -/
def conf (req : Nat) (mode : Mode) (ovw : Bool) : Config :=
  { reqCapacity := req, dataW := 8, mode := mode, hasOverwrite := ovw }

/-- A state after reset with the given registers and storage. -/
def st (c : Config) (r w n : Nat) (m : Memory) : State :=
  { State.reset with cfg := c, readIndex := r, writeIndex := w, countReg := n, storage := m }

/-- TC, CAPACITY 4: empty, two elements, full (95_test_vectors.md 2.4). -/
def tcEmpty : State := st (conf 4 .twoCursor true) 0 0 0 []
def tcTwo : State := st (conf 4 .twoCursor true) 0 2 0 [(0, 0xA1), (1, 0xA2)]
def tcFull : State := st (conf 4 .twoCursor true) 0 3 0 [(0, 0xA1), (1, 0xA2), (2, 0xA3)]
/-- CT, CAPACITY 4: empty, two elements, full. -/
def ctEmpty : State := st (conf 4 .countTracked true) 0 0 0 []
def ctTwo : State := st (conf 4 .countTracked true) 0 2 2 [(0, 0xA1), (1, 0xA2)]
def ctFull : State := st (conf 4 .countTracked true) 0 0 4 [(0, 0xA1), (1, 0xA2), (2, 0xA3), (3, 0xA4)]
/-- TC, CAPACITY 1: the degenerate instance. -/
def tcOne : State := st (conf 1 .twoCursor true) 0 0 0 []
/-- CT, CAPACITY 1, full. -/
def ctOne : State := st (conf 1 .countTracked true) 0 0 1 [(0, 0xA1)]
/-- An instance before its first reset. -/
def unreset : State := { tcEmpty with resetSeen := false }
/-- An instance without PUSH_OVW. -/
def plain : State := st (conf 4 .twoCursor false) 0 2 0 [(0, 0xA1), (1, 0xA2)]

/-- The host drives `ctrl` and `d` in the next cycle. -/
def drive (s : State) (ctrl : Ctrl) (d : Nat) : State := { s with inputs := [⟨ctrl, d⟩] }

def nextOf : Host.Outcome State Fault Refusal → Option State
  | .next t    => some t
  | .fault _   => none
  | .refused _ => none

def refusalOf : Host.Outcome State Fault Refusal → Option Refusal
  | .next _    => none
  | .fault _   => none
  | .refused r => some r

def faultOf : Host.Outcome State Fault Refusal → Option Fault
  | .next _    => none
  | .fault f   => some f
  | .refused _ => none

/-- The two cursors, the counter and the storage. -/
structure Regs where
  r : Nat
  w : Nat
  n : Nat
  m : List (Nat × Nat)
  deriving DecidableEq, Repr

def regs (t : State) : Regs := ⟨t.readIndex, t.writeIndex, t.countReg, t.storage⟩

/-- What a cycle answers on its two ports, and the registers after it. -/
structure Answer where
  wr   : WrResp
  rd   : RdResp
  regs : Regs
  deriving DecidableEq, Repr

def result (o : Host.Outcome State Fault Refusal) : Option Answer :=
  (nextOf o).map (fun t => ⟨t.out.wrResp, t.out.rdResp, regs t⟩)

/-- The element a cycle returns with OK. -/
def returned (o : Host.Outcome State Fault Refusal) : Option Elem :=
  (nextOf o).bind (fun t => if t.out.rdResp = .ok then some t.out.rdData else none)

/-- A next state with a decidable property, found by evaluation. -/
theorem next_with {o : Host.Outcome State Fault Refusal} (P : State → Prop) [DecidablePred P]
    (h : (nextOf o).any (fun t => decide (P t)) = true) : ∃ t, o = .next t ∧ P t := by
  cases o with
  | next t    => exact ⟨t, rfl, by simpa [nextOf] using h⟩
  | fault f   => simp [nextOf] at h
  | refused r => simp [nextOf] at h

theorem tcEmpty_inv : tcEmpty.inv := by decide
theorem tcTwo_inv : tcTwo.inv := by decide
theorem tcFull_inv : tcFull.inv := by decide
theorem ctEmpty_inv : ctEmpty.inv := by decide
theorem ctTwo_inv : ctTwo.inv := by decide
theorem ctFull_inv : ctFull.inv := by decide
theorem tcOne_inv : tcOne.inv := by decide
theorem ctOne_inv : ctOne.inv := by decide
theorem unreset_inv : unreset.inv := by decide
theorem plain_inv : plain.inv := by decide

/-! ## Well-formedness: one ill-formed term for each check -/

theorem test_wf_push_too_wide : (Instr.push 256).wf (conf 4 .twoCursor true) = false := by decide
theorem test_wf_pushOvw_too_wide : (Instr.pushOvw 256).wf (conf 4 .twoCursor true) = false := by decide
theorem test_wf_pushOvw_absent : (Instr.pushOvw 0).wf (conf 4 .twoCursor false) = false := by decide
theorem test_wf_rsvP_absent : Instr.rsvP.wf (conf 4 .twoCursor false) = false := by decide
theorem test_wf_new_capacity : (Instr.new ⟨0, 8, .twoCursor, 0, none⟩).wf (conf 4 .twoCursor true) = false := by decide
theorem test_wf_new_width : (Instr.new ⟨4, 0, .twoCursor, 0, none⟩).wf (conf 4 .twoCursor true) = false := by decide
theorem test_wf_new_mode : (Instr.new ⟨4, 8, .other 2, 0, none⟩).wf (conf 4 .twoCursor true) = false := by decide
theorem test_wf_new_overwrite : (Instr.new ⟨4, 8, .twoCursor, 2, none⟩).wf (conf 4 .twoCursor true) = false := by decide
theorem test_wf_accepts : (Instr.push 255).wf (conf 4 .twoCursor true) = true ∧
    (Instr.new ⟨1, 1, .countTracked, 1, none⟩).wf (conf 4 .twoCursor true) = true := by decide

/-! ## Decoding, from words written out bit by bit (30_encoding.md R70-R77; 95_test_vectors.md 2.2) -/

theorem test_decode_nopP_nopC : decode (conf 4 .twoCursor false) ⟨0b00000#5, 7⟩ = .ok (.cycle .nopP .nopC) := by decide
theorem test_decode_pop : decode (conf 4 .twoCursor false) ⟨0b00001#5, 7⟩ = .ok (.cycle .nopP .pop) := by decide
theorem test_decode_rsvC : decode (conf 4 .twoCursor false) ⟨0b00010#5, 7⟩ = .ok (.cycle .nopP .rsvC) := by decide
theorem test_decode_peek : decode (conf 4 .twoCursor false) ⟨0b00011#5, 7⟩ = .ok (.cycle .nopP .peek) := by decide
theorem test_decode_push : decode (conf 4 .twoCursor false) ⟨0b00100#5, 0x2A⟩ = .ok (.cycle (.push 0x2A) .nopC) := by decide
theorem test_decode_push_peek : decode (conf 4 .twoCursor false) ⟨0b00111#5, 0x2A⟩ = .ok (.cycle (.push 0x2A) .peek) := by
  decide
theorem test_decode_rsvP : decode (conf 4 .twoCursor true) ⟨0b01000#5, 7⟩ = .ok (.cycle .rsvP .nopC) := by decide
theorem test_decode_pushOvw_pop :
    decode (conf 4 .twoCursor true) ⟨0b01101#5, 0xFF⟩ = .ok (.cycle (.pushOvw 0xFF) .pop) := by decide
theorem test_decode_reset : decode (conf 4 .twoCursor false) ⟨0b11100#5, 7⟩ = .ok .reset := by decide
theorem test_decode_refused :
    decode (conf 4 .twoCursor false) ⟨0b01000#5, 7⟩ = .error .overwriteNotConfigured ∧
    decode (conf 4 .twoCursor false) ⟨0b01111#5, 7⟩ = .error .overwriteNotConfigured := by decide
theorem test_decode_samples_the_wires :
    decode (conf 4 .twoCursor false) ⟨0b00100#5, 0x12A⟩ = .ok (.cycle (.push 0x2A) .nopC) := by decide
theorem test_table_word_of_two_commands : decodeTableWord 16 (0x2A * 256 + 0b00101) = some (.push 0x2A) := by decide
theorem test_table_word_beyond_the_control_word : decodeTableWord 8 0b00100000 = none := by decide

/-! ## Construction (95_test_vectors.md L1-1 and 2.1) -/

theorem test_capacities :
    [1, 2, 3, 4, 5, 7, 8, 9].map (fun n => (conf n .twoCursor false).capacity) = [1, 2, 4, 4, 8, 8, 8, 16] ∧
    [1, 2, 5, 9].map (fun n => (conf n .twoCursor false).cntW) = [1, 2, 4, 5] ∧
    [1, 2, 5, 9].map (fun n => (conf n .twoCursor false).usable) = [0, 1, 7, 15] ∧
    [1, 2, 5, 9].map (fun n => (conf n .countTracked false).usable) = [1, 2, 8, 16] := by decide
theorem test_new_refusals :
    refusalOf (exec (.new ⟨0, 8, .twoCursor, 0, none⟩) tcEmpty) = some .invalidCapacity ∧
    refusalOf (exec (.new ⟨4, 0, .twoCursor, 0, none⟩) tcEmpty) = some .invalidConfiguration := by decide
theorem test_new_is_not_reset :
    (nextOf (exec (.new ⟨5, 8, .countTracked, 1, none⟩) tcTwo)).map (fun t => (t.cfg, t.storage, t.resetSeen)) =
      some (conf 5 .countTracked true, [], false) := by decide
theorem test_config_names :
    (conf 5 .twoCursor false).name = "SyncFIFO-TWO_CURSOR-N5-W8" ∧
    (conf 1 .countTracked true).name = "SyncFIFO-COUNT_TRACKED-N1-W8-OVW" := by decide

/-! ## Status outputs (95_test_vectors.md 2.3) -/

/-- The three status outputs, read by their rows. -/
def statuses (s : State) : Option (Bool × Bool × Nat) := do
  let a ← nextOf (exec .isEmpty s)
  let b ← nextOf (exec .isFull a)
  let c ← nextOf (exec .len b)
  return (c.out.empty, c.out.full, c.out.count)

theorem test_status_twoCursor :
    statuses (st (conf 8 .twoCursor false) 5 5 0 []) = some (true, false, 0) ∧
    statuses (st (conf 8 .twoCursor false) 3 2 0 []) = some (false, true, 7) ∧
    statuses (st (conf 8 .twoCursor false) 6 1 0 []) = some (false, false, 3) ∧
    statuses (st (conf 8 .twoCursor false) 0 7 0 []) = some (false, true, 7) ∧
    statuses (st (conf 8 .twoCursor false) 7 0 0 []) = some (false, false, 1) ∧
    statuses (st (conf 2 .twoCursor false) 0 1 0 []) = some (false, true, 1) ∧
    statuses tcOne = some (true, true, 0) := by decide
theorem test_status_countTracked :
    statuses (st (conf 8 .countTracked false) 5 5 0 []) = some (true, false, 0) ∧
    statuses (st (conf 8 .countTracked false) 5 5 8 []) = some (false, true, 8) ∧
    statuses (st (conf 8 .countTracked false) 6 1 3 []) = some (false, false, 3) ∧
    statuses ctOne = some (false, true, 1) := by decide

/-! ## Single instructions (95_test_vectors.md 2.4, 2.5; the vector's number in the name) -/

theorem test_nopP_V10 : result (exec .nopP tcTwo) = some ⟨.idle, .idle, regs tcTwo⟩ := by decide
theorem test_nopC_V46 : result (exec .nopC ctFull) = some ⟨.idle, .idle, regs ctFull⟩ := by decide
theorem test_rsvP_as_nop : result (exec .rsvP tcFull) = some ⟨.idle, .idle, regs tcFull⟩ := by decide
theorem test_rsvP_refused : refusalOf (exec .rsvP plain) = some .overwriteNotConfigured := by decide
theorem test_rsvC_as_nop : result (exec .rsvC ctTwo) = some ⟨.idle, .idle, regs ctTwo⟩ := by decide
theorem test_push_V13 :
    result (exec (.push 0xB0) tcTwo) = some ⟨.ok, .idle, 0, 3, 0, [(0, 0xA1), (1, 0xA2), (2, 0xB0)]⟩ := by decide
theorem test_push_full_V49 : result (exec (.push 0xB0) ctFull) = some ⟨.full, .idle, regs ctFull⟩ := by decide
theorem test_pushOvw_V25 :
    result (exec (.pushOvw 0xB0) tcFull) = some ⟨.ok, .idle, 1, 0, 0, [(1, 0xA2), (2, 0xA3), (3, 0xB0)]⟩ := by decide
theorem test_pushOvw_V52 :
    result (exec (.pushOvw 0xB0) ctFull) =
      some ⟨.ok, .idle, 1, 1, 4, [(0, 0xB0), (1, 0xA2), (2, 0xA3), (3, 0xA4)]⟩ := by decide
theorem test_pop_wraps :
    result (exec .pop (st (conf 8 .twoCursor false) 7 1 0 [(0, 0x02), (7, 0x01)])) =
      some ⟨.idle, .ok, 0, 1, 0, [(0, 0x02)]⟩ ∧
    returned (exec .pop (st (conf 8 .twoCursor false) 7 1 0 [(0, 0x02), (7, 0x01)])) = some 0x01 := by decide
theorem test_pop_empty_V29 : result (exec .pop ctEmpty) = some ⟨.idle, .empty, regs ctEmpty⟩ := by decide
theorem test_peek_V12 :
    result (exec .peek tcTwo) = some ⟨.idle, .ok, regs tcTwo⟩ ∧ returned (exec .peek tcTwo) = some 0xA1 := by decide
theorem test_peek_empty_V57 : result (exec .peek tcOne) = some ⟨.idle, .empty, regs tcOne⟩ := by decide
theorem test_reset_clears :
    result (exec .reset tcTwo) = some ⟨.idle, .idle, 0, 0, 0, []⟩ ∧
    (nextOf (exec .reset tcTwo)).map (fun t => (t.out.empty, t.out.full, t.out.count)) = some (false, false, 2) := by
  decide
theorem test_slot_unwritten_faults :
    faultOf (exec .pop { tcTwo with storage := [] }) = some .slotUnwritten := by decide

/-! ## Whole cycles (95_test_vectors.md 2.4, 2.6, 2.7) -/

theorem test_cycle_V14 :
    result (step (drive tcTwo 0b00101#5 0xB0)) = some ⟨.ok, .ok, 1, 3, 0, [(1, 0xA2), (2, 0xB0)]⟩ ∧
    returned (step (drive tcTwo 0b00101#5 0xB0)) = some 0xA1 := by decide
theorem test_cycle_V23 :
    result (step (drive tcFull 0b00101#5 0xB0)) = some ⟨.full, .ok, 1, 3, 0, [(1, 0xA2), (2, 0xA3)]⟩ := by decide
theorem test_cycle_V32 :
    result (step (drive ctEmpty 0b00101#5 0xB0)) = some ⟨.ok, .empty, 0, 1, 1, [(0, 0xB0)]⟩ := by decide
theorem test_cycle_V53 :
    result (step (drive ctFull 0b01101#5 0xB0)) =
      some ⟨.ok, .ok, 1, 1, 4, [(0, 0xB0), (1, 0xA2), (2, 0xA3), (3, 0xA4)]⟩ ∧
    returned (step (drive ctFull 0b01101#5 0xB0)) = some 0xA1 := by decide
theorem test_cycle_V27 :
    result (step (drive tcFull 0b01111#5 0xB0)) = some ⟨.ok, .ok, 1, 0, 0, [(1, 0xA2), (2, 0xA3), (3, 0xB0)]⟩ ∧
    returned (step (drive tcFull 0b01111#5 0xB0)) = some 0xA1 := by decide
theorem test_cycle_V62 : result (step (drive tcOne 0b01101#5 0xB0)) = some ⟨.ok, .empty, 0, 0, 0, []⟩ := by decide
theorem test_cycle_V80 :
    result (step (drive ctOne 0b01101#5 0xB0)) = some ⟨.ok, .ok, 0, 0, 1, [(0, 0xB0)]⟩ := by decide
theorem test_ram_ports :
    (nextOf (step (drive (st (conf 8 .twoCursor false) 1 5 0 [(1, 1), (2, 2), (3, 3), (4, 4)]) 0b00100#5 0x33))).map
      (fun t => (t.out.ramWe, t.out.ramWaddr, t.out.ramWdata, t.out.ramRaddr)) = some (true, 5, 0x33, 1) := by decide
theorem test_reset_cycle_ignores_commands :
    result (step (drive tcTwo 0b10101#5 0x03)) = some ⟨.idle, .idle, 0, 0, 0, []⟩ := by decide
theorem test_unreset_pop_refused : refusalOf (step (drive unreset 0b00001#5 0)) = some .notReset := by decide
theorem test_reset_before_overwrite_check :
    (nextOf (step (drive plain 0b11100#5 0))).map regs = some ⟨0, 0, 0, []⟩ := by decide
theorem test_step_runs_the_fetched_word :
    (nextOf (step (State.reset.withFetchWord 16 (0x2A * 256 + 0b00100)))).map regs =
      some ⟨0, 1, 0, [(0, 0x2A)]⟩ := by decide
theorem test_no_control_word : refusalOf (step State.reset) = some .noControlWord := by decide
theorem test_mark_stops_the_run : refusalOf (step (drive { plain with refused := some .notReset } 0 0)) = some .notReset := by
  decide

/-! ## Assembler (30_encoding.md R82-R84) -/

theorem test_assemble_example :
    assembleText (conf 4 .twoCursor false) ["PUSH 0x2A | PEEK".toList] = some [⟨0b00111#5, 0x2A⟩] := by decide
theorem test_assemble_program :
    assembleText (conf 4 .twoCursor true) ["RESET ; start".toList, "FILL 1, 2".toList, "XFERO 0x0F".toList, "NOP".toList] =
      some [⟨0b10000#5, 0⟩, ⟨0b00100#5, 1⟩, ⟨0b00100#5, 2⟩, ⟨0b01101#5, 15⟩, ⟨0b00000#5, 0⟩] := by decide
/-- The counts the spec shows are decimal and may be wider than DATA_W bits (`DRAIN 1023`, 95_test_vectors.md L1-3). -/
theorem test_drain_expands :
    parseLine "DRAIN 3".toList = some (List.replicate 3 (.cycle .nop .pop)) ∧
    parsePseudo [['D', 'R', 'A', 'I', 'N'], ['1', '0', '2', '3']] = some (.drain 1023) := by decide
theorem test_assemble_too_wide : assembleText (conf 4 .twoCursor false) ["PUSH 256".toList] = none := by decide

/-! ## Witnesses: for every statement with hypotheses, a concrete case that meets them -/

theorem witness_RoundUpIsLeastPowerOfTwo : 1 ≤ 1 ∧ roundUpToPow2 1 = 1 := by decide
theorem witness_MaskingIsRemainder :
    0 < (conf 8 .twoCursor false).capacity ∧ 7 < (conf 8 .twoCursor false).capacity ∧
    andMask ((0 : Nat) - (7 : Nat) : Int) (conf 8 .twoCursor false).mask = 1 := by decide
theorem witness_DerivedConstants : (conf 1 .twoCursor false).legal := by decide

/-- Parameters at the bound an implementation with `MAX_PTR_W = 3` can just build. -/
def params : NewParams := { reqCapacity := 5, dataW := 8, mode := .countTracked, hasOverwrite := 1, maxPtrW := some 3 }

theorem witness_NewBuildsPowerOnInstance :
    params.wf = true ∧ (∀ bound, params.maxPtrW = some bound → roundUpToPow2 params.reqCapacity ≤ 2 ^ bound) := by
  refine ⟨by decide, ?_⟩
  intro bound h
  have h3 : 3 = bound := Option.some.inj h
  subst h3
  decide
theorem witness_NewBuildsPowerOnInstance_twoCursor :
    NewParams.wf ⟨1, 1, .twoCursor, 0, none⟩ = true ∧
    (∀ bound, (⟨1, 1, .twoCursor, 0, none⟩ : NewParams).maxPtrW = some bound → roundUpToPow2 1 ≤ 2 ^ bound) :=
  ⟨by decide, fun _ h => by cases h⟩
theorem witness_NewRefusesZeroCapacity : ({ params with reqCapacity := 0 } : NewParams).reqCapacity = 0 := by decide
theorem witness_NewRefusesIllegalParameters :
    1 ≤ params.reqCapacity ∧ ({ params with dataW := 0 } : NewParams).dataW = 0 ∧
    (ModeParam.other 2 ≠ .twoCursor ∧ ModeParam.other 2 ≠ .countTracked) ∧
    2 ≤ ({ params with hasOverwrite := 2 } : NewParams).hasOverwrite := by decide
theorem witness_NewRefusesUnbuildableCapacity :
    ({ params with maxPtrW := some 2 } : NewParams).wf = true ∧ 2 ^ 2 < roundUpToPow2 params.reqCapacity := by decide

theorem witness_DecodeFollowsTheFields :
    (0b10000#5).getLsbD 4 = true ∧
    ((0b01000#5).getLsbD 4 = false ∧ (conf 4 .twoCursor false).hasOverwrite = false ∧ (0b01000#5).getLsbD 3 = true) ∧
    ((0b01111#5).getLsbD 4 = false ∧ (conf 4 .twoCursor true).hasOverwrite = true) ∧
    ((0b00111#5).getLsbD 4 = false ∧ (0b00111#5).getLsbD 3 = false) := by decide
theorem witness_EncodedCycleDecodesToItself :
    (ProducerCmd.pushOvw 255).instr.wf (conf 4 .twoCursor true) = true ∧
    (ProducerCmd.push 255).instr.wf (conf 4 .twoCursor false) = true := by decide
theorem witness_DecodedWordEncodesToItself :
    decode (conf 4 .twoCursor true) ⟨0b01110#5, 511⟩ = .ok (.cycle (.pushOvw 255) .rsvC) := by decide
theorem witness_EveryInstructionWordDecodesToIt :
    ((Instr.push 255).wf (conf 4 .twoCursor false) = true ∧ encode (.push 255) = some ⟨0b00100#5, 255⟩) ∧
    ((Instr.pushOvw 255).wf (conf 4 .twoCursor true) = true ∧ encode (.pushOvw 255) = some ⟨0b01100#5, 255⟩) ∧
    (Instr.rsvP.wf (conf 4 .twoCursor true) = true ∧ encode .rsvP = some ⟨0b01000#5, 0⟩) ∧
    (Instr.rsvC.wf (conf 4 .twoCursor false) = true ∧ encode .rsvC = some ⟨0b00010#5, 0⟩) ∧
    (Instr.len.wf (conf 4 .twoCursor false) = true ∧ encode .len = none) := by decide
theorem witness_OpcodeRowsUnambiguous : Ctrl.rst 0b10000#5 = true ∧ Ctrl.rst 0b01111#5 = false := by decide
theorem witness_AssembledLineDecodesToItsCommands :
    AsmLine.reset.assemble (conf 4 .twoCursor false) = some ⟨0b10000#5, 0⟩ ∧
    (AsmLine.cycle (.push 255) .peek).assemble (conf 4 .twoCursor false) = some ⟨0b00111#5, 255⟩ ∧
    (AsmLine.cycle (.pushOvw 255) .pop).assemble (conf 4 .twoCursor true) = some ⟨0b01101#5, 255⟩ := by decide
theorem witness_PseudoInstructionExpansions :
    255 < 2 ^ (conf 4 .twoCursor true).dataW ∧ (conf 4 .twoCursor true).hasOverwrite = true ∧
    ∀ x ∈ [0, 255], x < 2 ^ (conf 4 .twoCursor true).dataW := by decide

theorem witness_StatusPortsShowPreEdgeState :
    (drive ctFull 0b01100#5 1).resetSeen = true ∧ ∃ t, step (drive ctFull 0b01100#5 1) = .next t ∧ t.out.full = true :=
  ⟨by decide, next_with _ (by decide)⟩
theorem witness_StatusReadsComplete : tcOne.resetSeen = true := by decide
theorem witness_FlagLaws :
    tcOne.cfg.legal ∧ tcOne.readIndex < tcOne.cfg.capacity ∧ tcOne.writeIndex < tcOne.cfg.capacity := by decide
theorem witness_RamPortsFollowTheCursors :
    (drive tcFull 0b01100#5 511).drives ⟨0b01100#5, 511⟩ [] ∧
    ∃ t, step (drive tcFull 0b01100#5 511) = .next t ∧ t.out.ramWdata = 255 :=
  ⟨by decide, next_with _ (by decide)⟩
theorem witness_NoOperationsLeaveTheState : tcFull.inv ∧ tcFull.resetSeen = true ∧ tcFull.cfg.hasOverwrite = true :=
  ⟨tcFull_inv, by decide⟩
theorem witness_PushStoresOrReportsFull :
    (ctFull.inv ∧ ctFull.resetSeen = true ∧ ctFull.isFull = true) ∧
    (tcTwo.inv ∧ tcTwo.resetSeen = true ∧ tcTwo.isFull = false) :=
  ⟨⟨ctFull_inv, by decide⟩, tcTwo_inv, by decide⟩
theorem witness_PushOvwStoresAndDropsOldest :
    (tcTwo.inv ∧ tcTwo.resetSeen = true ∧ tcTwo.cfg.hasOverwrite = true ∧ tcTwo.isFull = false) ∧
    (tcFull.inv ∧ tcFull.isFull = true ∧ tcFull.readIndex ≠ tcFull.writeIndex) ∧
    (ctFull.inv ∧ ctFull.isFull = true ∧ ctFull.readIndex = ctFull.writeIndex) ∧
    (tcOne.inv ∧ tcOne.isFull = true ∧ tcOne.cfg.usable = 0) :=
  ⟨⟨tcTwo_inv, by decide⟩, ⟨tcFull_inv, by decide⟩, ⟨ctFull_inv, by decide⟩, tcOne_inv, by decide⟩
theorem witness_OverwriteCodesRefusedWhenAbsent :
    plain.resetSeen = true ∧ plain.cfg.hasOverwrite = false ∧
    (drive plain 0b01000#5 0).drives ⟨0b01000#5, 0⟩ [] := by decide
theorem witness_PopRemovesOldest :
    (ctEmpty.inv ∧ ctEmpty.resetSeen = true ∧ ctEmpty.isEmpty = true) ∧ (ctFull.inv ∧ ctFull.isEmpty = false) :=
  ⟨⟨ctEmpty_inv, by decide⟩, ctFull_inv, by decide⟩
theorem witness_PeekReadsOldest :
    (tcOne.inv ∧ tcOne.resetSeen = true ∧ tcOne.isEmpty = true) ∧ (ctOne.inv ∧ ctOne.isEmpty = false) :=
  ⟨⟨tcOne_inv, by decide⟩, ctOne_inv, by decide⟩
theorem witness_PeekThenPopGivesTheSameElement : ctOne.inv ∧ ctOne.resetSeen = true ∧ ctOne.isEmpty = false :=
  ⟨ctOne_inv, by decide⟩

theorem witness_ResetClearsTheMachine : tcFull.resetSeen = true := by decide
theorem witness_ResetCycleIgnoresItsCommands :
    (drive tcTwo 0b11111#5 3).drives ⟨0b11111#5, 3⟩ [] ∧ (0b11111#5).getLsbD 4 = true := by decide
theorem witness_AfterResetTheBufferIsEmpty : ∃ t, exec .reset tcFull = .next t ∧ t.isEmpty = true :=
  next_with _ (by decide)

theorem witness_QuietCommandsFrame :
    ctTwo.inv ∧ (∃ t, exec .peek ctTwo = .next t ∧ t.out.rdResp = .ok) ∧
    (∃ t, exec .rsvP ctTwo = .next t ∧ t.out.wrResp = .idle) :=
  ⟨ctTwo_inv, next_with _ (by decide), next_with _ (by decide)⟩
theorem witness_PushFrame :
    (tcTwo.inv ∧ ∃ t, exec (.push 1) tcTwo = .next t ∧ t.out.wrResp = .ok) ∧
    (ctFull.inv ∧ ∃ t, exec (.push 1) ctFull = .next t ∧ t.out.wrResp = .full) :=
  ⟨⟨tcTwo_inv, next_with _ (by decide)⟩, ctFull_inv, next_with _ (by decide)⟩
theorem witness_PushOvwFrame :
    (tcTwo.inv ∧ tcTwo.isFull = false ∧ ∃ t, exec (.pushOvw 1) tcTwo = .next t ∧ t.out.wrResp = .ok) ∧
    (ctFull.inv ∧ ctFull.isFull = true ∧ ∃ t, exec (.pushOvw 1) ctFull = .next t ∧ t.out.wrResp = .ok) :=
  ⟨⟨tcTwo_inv, by decide, next_with _ (by decide)⟩, ctFull_inv, by decide, next_with _ (by decide)⟩
theorem witness_PopFrame :
    (tcTwo.inv ∧ ∃ t, exec .pop tcTwo = .next t ∧ t.out.rdResp = .ok) ∧
    (tcOne.inv ∧ ∃ t, exec .pop tcOne = .next t ∧ t.out.rdResp = .empty) :=
  ⟨⟨tcTwo_inv, next_with _ (by decide)⟩, tcOne_inv, next_with _ (by decide)⟩
theorem witness_ResetStatusAndNewFrame :
    (∃ t, exec .reset tcTwo = .next t ∧ t.cfg = tcTwo.cfg) ∧ (∃ t, exec .len tcTwo = .next t ∧ t.out.count = 2) ∧
    (∃ t, exec (.new params) tcTwo = .next t ∧ t.resetSeen = false) :=
  ⟨next_with _ (by decide), next_with _ (by decide), next_with _ (by decide)⟩

theorem witness_StepRunsDecodedInstruction :
    (drive tcTwo 0b00100#5 511).drives ⟨0b00100#5, 511⟩ [] ∧
    decode tcTwo.cfg ⟨0b00100#5, 511⟩ = .ok (.cycle (.push 255) .nopC) ∧
    (Instr.push 255).alone = some (.cycle (.push 255) .nopC) := by decide
theorem witness_StepRunsBothCommands :
    (drive tcTwo 0b01111#5 1).drives ⟨0b01111#5, 1⟩ [] ∧ tcTwo.resetSeen = true ∧
    decode tcTwo.cfg ⟨0b01111#5, 1⟩ = .ok (.cycle (.pushOvw 1) .peek) := by decide

/-- A cycle of two commands on a full buffer: PUSH_OVW and PEEK drop the oldest element. -/
def dropping : State := drive ctFull 0b01111#5 1

theorem dropping_inv : dropping.inv := by decide
theorem dropping_drives : dropping.drives ⟨0b01111#5, 1⟩ [] ∧ dropping.resetSeen = true ∧
    decode dropping.cfg ⟨0b01111#5, 1⟩ = .ok (.cycle (.pushOvw 1) .peek) := by decide

theorem witness_CycleFollowsTheStepRule : dropping.inv ∧ dropping.resetSeen = true ∧
    dropping.drives ⟨0b01111#5, 1⟩ [] ∧ decode dropping.cfg ⟨0b01111#5, 1⟩ = .ok (.cycle (.pushOvw 1) .peek) ∧
    dropping.cfg.mode = .countTracked := ⟨dropping_inv, by decide⟩
theorem witness_CyclePriority :
    ((drive unreset 0b11000#5 0).inv ∧ (drive unreset 0b11000#5 0).drives ⟨0b11000#5, 0⟩ []) ∧
    ((drive unreset 0b01000#5 0).inv ∧ (drive unreset 0b01000#5 0).drives ⟨0b01000#5, 0⟩ [] ∧
      unreset.resetSeen = false) ∧
    ((drive plain 0b01000#5 0).inv ∧ (drive plain 0b01000#5 0).drives ⟨0b01000#5, 0⟩ [] ∧ plain.resetSeen = true ∧
      plain.cfg.hasOverwrite = false) ∧
    ((drive tcOne 0b00101#5 0).inv ∧ (drive tcOne 0b00101#5 0).drives ⟨0b00101#5, 0⟩ [] ∧
      result (step (drive tcOne 0b00101#5 0)) = some ⟨.full, .empty, regs tcOne⟩) :=
  ⟨⟨by decide, by decide⟩, ⟨by decide, by decide⟩, ⟨by decide, by decide⟩, by decide, by decide⟩
theorem witness_UnresetMachineRefusesCommands :
    unreset.resetSeen = false ∧ tcTwo.resetSeen = true ∧
    ∃ t, step (drive tcTwo 0b00001#5 0) = .next t ∧ t.resetSeen = true :=
  ⟨by decide, by decide, next_with _ (by decide)⟩
theorem witness_CycleEqualsCommandsInSequence :
    (dropping.inv ∧ dropping.resetSeen = true ∧ dropping.drives ⟨0b01111#5, 1⟩ [] ∧
      decode dropping.cfg ⟨0b01111#5, 1⟩ = .ok (.cycle (.pushOvw 1) .peek)) ∧
    ((drive ctFull 0b00101#5 1).inv ∧ (drive ctFull 0b00101#5 1).drives ⟨0b00101#5, 1⟩ [] ∧
      decode ctFull.cfg ⟨0b00101#5, 1⟩ = .ok (.cycle (.push 1) .pop) ∧ (ProducerCmd.push 1).isPush = true ∧
      ctFull.isFull = true) :=
  ⟨⟨dropping_inv, by decide⟩, by decide, by decide⟩
theorem witness_CycleRefinesRingBuffer : dropping.inv ∧ dropping.resetSeen = true ∧
    dropping.drives ⟨0b01111#5, 1⟩ [] ∧ decode dropping.cfg ⟨0b01111#5, 1⟩ = .ok (.cycle (.pushOvw 1) .peek) :=
  ⟨dropping_inv, by decide⟩
theorem witness_StepKeepsInvariant : dropping.inv ∧ ∃ t, step dropping = .next t ∧ t.writeIndex = 1 :=
  ⟨dropping_inv, next_with _ (by decide)⟩
theorem witness_EveryInstructionKeepsInvariant :
    tcTwo.inv ∧ (Instr.pushOvw 255).wf tcTwo.cfg = true ∧
    ∃ t, exec (.pushOvw 255) tcTwo = .next t ∧ t.writeIndex = 3 :=
  ⟨tcTwo_inv, by decide, next_with _ (by decide)⟩

/-- Three cycles from an empty buffer: PUSH, PEEK, POP. -/
def pushPeekPop : State :=
  { tcEmpty with inputs := [⟨0b00100#5, 0x11⟩, ⟨0b00011#5, 0⟩, ⟨0b00001#5, 0⟩] }

/-- The record of a run, and the elements held after it. -/
def recordOf (n : Nat) (s : State) : Option (FifoLog × List Elem) := (fifoLog n s).map (fun r => (r.1, r.2.contents))

theorem witness_FifoOrder :
    pushPeekPop.inv ∧ pushPeekPop.resetSeen = true ∧ pushPeekPop.contents = [] ∧
    (∀ w ∈ pushPeekPop.inputs.take 3, w.ctrl.rst = false) ∧
    recordOf 3 pushPeekPop = some (⟨[0x11], [0x11], 0⟩, []) :=
  ⟨by decide, by decide, by decide, by decide, by decide⟩

/-- The state after the first of the three cycles drives PEEK, and then POP. -/
theorem witness_FifoOrder_peek :
    ∃ s t v, step pushPeekPop = .next s ∧ s.inv ∧ s.drives ⟨0b00011#5, 0⟩ [⟨0b00001#5, 0⟩] ∧
      step s = .next t ∧ t.out.rdResp = .ok ∧ (cycleLog ⟨0b00011#5, 0⟩ s t).dropped = 0 ∧
      fifoLog 0 t = some (⟨[], [], 0⟩, t) ∧ t.drives ⟨0b00001#5, 0⟩ [] ∧ step t = .next v ∧ v.out.rdResp = .ok := by
  refine ⟨_, _, _, rfl, ?_, ?_, rfl, ?_, ?_, rfl, ?_, rfl, ?_⟩ <;> decide
theorem witness_RunsNeverFault : dropping.inv ∧ dropping.faulted = none := ⟨dropping_inv, by decide⟩
theorem witness_EmptySlotReadFaults :
    (({ tcTwo with storage := [] } : State).resetSeen = true ∧ ({ tcTwo with storage := [] } : State).isEmpty = false ∧
      ({ tcTwo with storage := [] } : State).storage.read 0 = none) ∧
    faultOf (step { tcTwo with storage := [], inputs := [⟨0b00001#5, 0⟩] }) = some .slotUnwritten ∧
    ({ tcTwo with faulted := some .slotUnwritten } : State).faulted = some .slotUnwritten := by decide
theorem witness_RefusedRunTakesNoFurtherStep :
    ((drive unreset 0b00100#5 0).drives ⟨0b00100#5, 0⟩ [] ∧ unreset.resetSeen = false) ∧
    ((drive plain 0b01000#5 0).drives ⟨0b01000#5, 0⟩ [] ∧ plain.resetSeen = true ∧ plain.cfg.hasOverwrite = false) ∧
    refusalOf (step (drive unreset 0b00100#5 0)) = some .notReset ∧
    (({ plain with refused := some .notReset } : State).faulted = none ∧
      ({ plain with refused := some .notReset } : State).refused = some .notReset) := by decide
theorem witness_NoBypassBetweenPorts :
    ((drive ctEmpty 0b00101#5 1).inv ∧ (drive ctEmpty 0b00101#5 1).drives ⟨0b00101#5, 1⟩ [] ∧
      decode ctEmpty.cfg ⟨0b00101#5, 1⟩ = .ok (.cycle (.push 1) .pop) ∧ ctEmpty.isEmpty = true ∧
      ctEmpty.isFull = false ∧ ctEmpty.cfg.usable ≠ 0) ∧
    ((drive ctFull 0b00101#5 1).inv ∧ (drive ctFull 0b00101#5 1).drives ⟨0b00101#5, 1⟩ [] ∧
      decode ctFull.cfg ⟨0b00101#5, 1⟩ = .ok (.cycle (.push 1) .pop) ∧ ctFull.isFull = true ∧
      ctFull.isEmpty = false) ∧
    (dropping.inv ∧ decode dropping.cfg ⟨0b01111#5, 1⟩ = .ok (.cycle (.pushOvw 1) .peek)) :=
  ⟨⟨by decide, by decide⟩, ⟨by decide, by decide⟩, dropping_inv, by decide⟩
theorem witness_StatusPredictsAcceptance : dropping.inv ∧ dropping.resetSeen = true ∧
    dropping.drives ⟨0b01111#5, 1⟩ [] ∧ decode dropping.cfg ⟨0b01111#5, 1⟩ = .ok (.cycle (.pushOvw 1) .peek) ∧
    (drive ctFull 0b00101#5 1).inv ∧ decode ctFull.cfg ⟨0b00101#5, 1⟩ = .ok (.cycle (.push 1) .pop) :=
  ⟨dropping_inv, by decide, by decide, by decide, by decide, by decide⟩
theorem witness_DegenerateInstanceHoldsNothing :
    ((drive tcOne 0b01101#5 1).inv ∧ tcOne.resetSeen = true ∧ tcOne.cfg.mode = .twoCursor ∧ tcOne.cfg.reqCapacity = 1 ∧
      (drive tcOne 0b01101#5 1).drives ⟨0b01101#5, 1⟩ [] ∧
      decode tcOne.cfg ⟨0b01101#5, 1⟩ = .ok (.cycle (.pushOvw 1) .pop)) ∧
    ((drive tcOne 0b00111#5 1).inv ∧ (drive tcOne 0b00111#5 1).drives ⟨0b00111#5, 1⟩ [] ∧
      decode tcOne.cfg ⟨0b00111#5, 1⟩ = .ok (.cycle (.push 1) .peek)) :=
  ⟨⟨by decide, by decide⟩, by decide, by decide⟩
theorem witness_DegenerateInstanceHoldsNothing_reset :
    (drive tcOne 0b10000#5 1).inv ∧ ∃ t, step (drive tcOne 0b10000#5 1) = .next t ∧ t.out.empty = true :=
  ⟨by decide, next_with _ (by decide)⟩
theorem witness_CapacityNeverChanges :
    (∃ t, step dropping = .next t ∧ t.cfg = dropping.cfg) ∧
    (∃ t, exec .pop tcTwo = .next t ∧ t.cfg = tcTwo.cfg) ∧ ∀ p, Instr.pop ≠ .new p :=
  ⟨next_with _ (by decide), next_with _ (by decide), fun _ h => by cases h⟩
theorem witness_PortsWriteSeparately :
    (tcTwo.inv ∧ tcTwo.resetSeen = true ∧ (∃ t, runPair (.push 1) .pop tcTwo = .next t ∧ t.writeIndex = 3) ∧
      (∃ u, runPair (.push 1) .nopC tcTwo = .next u ∧ u.writeIndex = 3) ∧
      (∃ v, runPair .nopP .pop tcTwo = .next v ∧ v.readIndex = 1) ∧ ∀ d, ProducerCmd.push 1 ≠ .pushOvw d) ∧
    (ctFull.inv ∧ ∃ t, runPair (.pushOvw 1) .pop ctFull = .next t ∧ t.readIndex = 1) :=
  ⟨⟨tcTwo_inv, by decide, next_with _ (by decide), next_with _ (by decide), next_with _ (by decide),
    fun _ h => by cases h⟩, ctFull_inv, next_with _ (by decide)⟩

/-- The same hardware as `dropping`, with other free values and other leftovers of the model's own. -/
def droppingAgain : State := { dropping with draws := 7, wrBus := 9 }

theorem witness_StepIgnoresUnspecifiedValues :
    dropping.arch = droppingAgain.arch ∧ dropping.faulted = droppingAgain.faulted ∧
    dropping.refused = droppingAgain.refused ∧ dropping.inputs = droppingAgain.inputs ∧ dropping.resetSeen = true ∧
    ∃ t, step dropping = .next t ∧ t.out.rdResp = .ok :=
  ⟨by decide, by decide, by decide, by decide, by decide, next_with _ (by decide)⟩
theorem witness_ElementsLeaveOnlyByPopOrDrop :
    (drive tcTwo 0b01111#5 1).inv ∧ (drive tcTwo 0b01111#5 1).drives ⟨0b01111#5, 1⟩ [] ∧
    ∃ t, step (drive tcTwo 0b01111#5 1) = .next t ∧
      (cycleLog ⟨0b01111#5, 1⟩ (drive tcTwo 0b01111#5 1) t).popped = [] ∧
      (cycleLog ⟨0b01111#5, 1⟩ (drive tcTwo 0b01111#5 1) t).dropped = 0 :=
  ⟨by decide, by decide, next_with _ (by decide)⟩
theorem witness_ElementCountWithinUsable : ctFull.inv ∧ ctFull.resetSeen = true ∧ ctFull.len = ctFull.cfg.usable :=
  ⟨ctFull_inv, by decide⟩

end Sys2Proof.Tests
end

section
/-! PROOFS. 00_scope.md: masking by `MASK` is the remainder by `CAPACITY` (R12), and NEW refuses a capacity the
implementation cannot build (R10, D16). The facts about elaboration are stated for every legal parameter set, whichever
way `buildable` decides. -/

namespace Sys2Proof

/-! ## Masking -/

namespace Config

theorem and_mask (c : Config) (x : Nat) : x &&& c.mask = x % c.capacity := by
  rw [mask_eq, Nat.and_two_pow_sub_one_eq_mod, capacity_eq]

theorem andMask_mask_natCast (c : Config) (x : Nat) : andMask (x : Int) c.mask = x % c.capacity :=
  c.and_mask x

/-- Without the truncation to `Nat` of `andMask_pow`: the remainder by the positive `CAPACITY` is not negative. -/
theorem natCast_andMask_mask (c : Config) (x : Int) : (andMask x c.mask : Int) = x % (c.capacity : Int) := by
  have hpos : (c.capacity : Int) ≠ 0 := by exact_mod_cast c.capacity_pos.ne'
  rw [mask_eq, andMask_pow, ← capacity_eq, Int.toNat_of_nonneg (Int.emod_nonneg x hpos)]

end Config

/-! ## Elaboration of legal parameters -/

theorem Config.buildable_some_eq_false_iff (c : Config) (bound : Nat) :
    c.buildable (some bound) = false ↔ 2 ^ bound < c.capacity := by
  rw [Config.buildable, decide_eq_false_iff_not, not_le, c.capacity_eq, Nat.pow_lt_pow_iff_right Nat.one_lt_two]

theorem NewParams.wf_iff (p : NewParams) :
    p.wf = true ↔ 1 ≤ p.reqCapacity ∧ 1 ≤ p.dataW ∧ (p.mode = .twoCursor ∨ p.mode = .countTracked) ∧
      p.hasOverwrite ≤ 1 := by
  simp [NewParams.wf, and_assoc]

namespace Machine

theorem elaborateMode_ok {m : ModeParam} (h : m = .twoCursor ∨ m = .countTracked) :
    ∃ mode, elaborateMode m = .ok mode := by
  rcases h with rfl | rfl
  · exact ⟨.twoCursor, rfl⟩
  · exact ⟨.countTracked, rfl⟩

theorem elaborateOverwrite_ok {n : Nat} (h : n ≤ 1) : elaborateOverwrite n = .ok (decide (n = 1)) := by
  obtain rfl | rfl := Nat.le_one_iff_eq_zero_or_eq_one.mp h <;> rfl

/-- With legal parameters, elaboration turns on `MAX_PTR_W` alone (00_scope.md R10). -/
theorem elaborate_of_wf {p : NewParams} (h : p.wf = true) :
    ∃ c : Config, c.reqCapacity = p.reqCapacity ∧ c.dataW = p.dataW ∧ elaborateMode p.mode = .ok c.mode ∧
      c.hasOverwrite = decide (p.hasOverwrite = 1) ∧
      elaborate p = if c.buildable p.maxPtrW then .ok c else .error .capacityAboveMaxPtrW := by
  obtain ⟨hreq, hdata, hmode, hovw⟩ := p.wf_iff.mp h
  obtain ⟨mode, hm⟩ := elaborateMode_ok hmode
  refine ⟨⟨p.reqCapacity, p.dataW, mode, decide (p.hasOverwrite = 1)⟩, rfl, rfl, hm, rfl, ?_⟩
  have hreq0 : p.reqCapacity ≠ 0 := Nat.one_le_iff_ne_zero.mp hreq
  have hdata0 : p.dataW ≠ 0 := Nat.one_le_iff_ne_zero.mp hdata
  simp only [elaborate, hreq0, hdata0, if_false, hm, elaborateOverwrite_ok hovw]

theorem exec_new_of_elaborate_error {p : NewParams} {r : Refusal} (h : elaborate p = .error r) (s : State) :
    exec (.new p) s = .refused r := by
  simp [exec, execNew, h]

end Machine

end Sys2Proof

open Sys2Proof Sys2Proof.Machine

/-- Settles O2: `MASK` is `2 ^ PTR_W - 1`, so its AND with any integer is the remainder by `2 ^ PTR_W`. -/
theorem maskingIsRemainder : Obligations.MaskingIsRemainder := by
  unfold Obligations.MaskingIsRemainder
  intro c
  refine ⟨c.capacity_eq_pow, rfl, fun x => ⟨c.and_mask x, c.andMask_mask_natCast x⟩, fun a b _ _ => ?_⟩
  exact ⟨c.natCast_andMask_mask _, c.distance_lt a b⟩

/-- Settles O7: `2 ^ MAX_PTR_W < CAPACITY` says `MAX_PTR_W < PTR_W`, and elaboration turns on that alone. -/
theorem newRefusesUnbuildableCapacity : Obligations.NewRefusesUnbuildableCapacity := by
  unfold Obligations.NewRefusesUnbuildableCapacity
  intro p s bound hwf hmax habove
  obtain ⟨c, hreq, -, -, -, helab⟩ := elaborate_of_wf hwf
  have hcap : 2 ^ bound < c.capacity := by rwa [Config.capacity, hreq]
  have hnot : c.buildable p.maxPtrW = false := by rwa [hmax, c.buildable_some_eq_false_iff]
  exact exec_new_of_elaborate_error (by simp [helab, hnot]) s

end

section
/-! PROOFS. 10_state.md: the derived constants (R21), the count and the places of the elements held (R28-R30), and the
state `State.reset` (R34), which agrees with what a RESET cycle leaves of it. -/

namespace Sys2Proof

/-- `MASK` has its low `PTR_W` bits set and no other (10_state.md R21). -/
theorem Config.testBit_mask (c : Config) (i : Nat) : c.mask.testBit i = decide (i < c.ptrW) := by
  rw [c.mask_eq, Nat.testBit_two_pow_sub_one]

namespace Machine.State

theorem consistent.len_le_usable {s : State} (h : s.consistent) : s.len ≤ s.cfg.usable := by
  obtain ⟨-, hle, -⟩ := h
  exact hle

/-- The invariant reads the hardware's part of the state and the port `wr_data`, and nothing else. -/
theorem inv_iff_of_arch_eq {s t : State} (harch : s.arch = t.arch) (hbus : s.wrBus = t.wrBus) : s.inv ↔ t.inv := by
  cases s
  cases t
  cases harch
  cases hbus
  rfl

theorem resetEdge_arch (s : State) :
    s.resetEdge.arch =
      { cfg := s.cfg, readIndex := 0, writeIndex := 0, countReg := 0, storage := [], resetSeen := true } := rfl

theorem reset_resetEdge_arch : reset.resetEdge.arch = reset.arch := resetEdge_arch reset

end Machine.State

end Sys2Proof

open Sys2Proof Sys2Proof.Machine

/-- Settles O3: `RoundUpToPow2` answers a power of two, of which `PTR_W` is the exponent. -/
theorem derivedConstants : Obligations.DerivedConstants := by
  unfold Obligations.DerivedConstants
  intro c _
  exact ⟨rfl, c.capacity_eq, c.capacity_pos, rfl, c.testBit_mask, rfl⟩

/-- Settles O58: every live slot holds a value, so none of the `len` places is left out of the elements held. -/
theorem elementCountWithinUsable : Obligations.ElementCountWithinUsable := by
  unfold Obligations.ElementCountWithinUsable
  intro s hinv hseen
  obtain ⟨hr, hw, hcons⟩ := hinv.ready hseen
  refine ⟨contents_length hr hcons, hcons.len_le_usable, ?_, ?_⟩
  · cases hm : s.cfg.mode with
    | twoCursor => exact State.usable_of_twoCursor hm
    | countTracked => exact State.usable_of_countTracked hm
  · rw [← s.cfg.advance_eq_mod]
    exact State.writeIndex_eq hr hw hcons

/-- Settles O31: the state RESET leaves is `State.reset.resetEdge`. -/
theorem resetStateIsTheStateAfterReset : Obligations.ResetStateIsTheStateAfterReset := by
  unfold Obligations.ResetStateIsTheStateAfterReset
  exact ⟨State.reset.resetEdge, rfl, State.reset_resetEdge_arch, rfl, rfl⟩

/-- Settles O46: a RESET cycle of a legal instance leaves the invariant true, and leaves of `State.reset` its own hardware
part. -/
theorem resetStateSatisfiesInvariant : Obligations.ResetStateSatisfiesInvariant := by
  unfold Obligations.ResetStateSatisfiesInvariant
  have hlegal : State.reset.cfg.legal := by decide
  have hbus : State.reset.wrBus < 2 ^ State.reset.cfg.dataW := by decide
  exact (State.inv_iff_of_arch_eq State.reset_resetEdge_arch rfl).mp (resetEdge_inv hlegal hbus)

end

section
/-! PROOFS. 30_encoding.md: the control word. What the decoder answers in each case of R74, the encoder as its inverse (R84),
and the opcode table's rows. -/

namespace Sys2Proof

/-! ## The decoder, case by case -/

theorem decode_of_rst (c : Config) {w : Input} (h4 : w.ctrl.rst = true) : decode c w = .ok .reset := by
  simp [decode, h4]

theorem decode_of_overwrite_absent {c : Config} {w : Input} (h4 : w.ctrl.rst = false) (ho : c.hasOverwrite = false)
    (h3 : w.ctrl.wrOvw = true) : decode c w = .error .overwriteNotConfigured := by
  simp [decode, h4, ho, h3]

theorem decode_of_overwrite_configured {c : Config} {w : Input} (h4 : w.ctrl.rst = false)
    (h : c.hasOverwrite = true ∨ w.ctrl.wrOvw = false) :
    decode c w = .ok (.cycle (decodeProducer w.ctrl.producerField (c.sample w.wrData))
      (decodeConsumer w.ctrl.consumerField)) := by
  rcases h with ho | h3
  · simp [decode, h4, ho]
  · simp [decode, h4, h3]

/-! ## The fields of a control word -/

namespace Ctrl

theorem producerField_eq_bits (w : Ctrl) :
    w.producerField = BitVec.ofBool (w.getLsbD 3) ++ BitVec.ofBool (w.getLsbD 2) := by
  revert w
  decide

theorem consumerField_eq_bits (w : Ctrl) :
    w.consumerField = BitVec.ofBool (w.getLsbD 1) ++ BitVec.ofBool (w.getLsbD 0) := by
  revert w
  decide

/-- With `CTRL[4] = 0` the two fields are all there is to a control word (30_encoding.md R70-R72). -/
theorem eq_append_fields {w : Ctrl} (h4 : w.rst = false) : w = 0#1 ++ (w.producerField ++ w.consumerField) := by
  revert w
  decide

end Ctrl

/-! ## The decoder and the encoder on one command -/

theorem decodeProducer_code (p : ProducerCmd) (bus : Elem) : decodeProducer p.code (p.data bus) = p := by
  cases p <;> rfl

theorem decodeConsumer_code (k : ConsumerCmd) : decodeConsumer k.code = k := by
  cases k <;> rfl

theorem code_decodeConsumer (f : BitVec 2) : (decodeConsumer f).code = f := by
  revert f
  decide

/-- A producer command is well formed when its code is there (30_encoding.md R77) and the DATA_W wires carry what it pushes
(R75), whatever they carry where it pushes nothing. -/
theorem ProducerCmd.wf_instr_iff (p : ProducerCmd) {c : Config} {bus : Elem} (hbus : bus < 2 ^ c.dataW) :
    p.instr.wf c = true ↔ (c.hasOverwrite = true ∨ p.code.getLsbD 1 = false) ∧ p.data bus < 2 ^ c.dataW := by
  cases p <;> simp [ProducerCmd.instr, Instr.wf, Elem.fits, ProducerCmd.code, ProducerCmd.data, hbus]

theorem decode_encodeCycle_of_wf {c : Config} {p : ProducerCmd} (k : ConsumerCmd) (hwf : p.instr.wf c = true) :
    decode c (encodeCycle (.cycle p k)) = .ok (.cycle p k) := by
  obtain ⟨hcode, hdata⟩ := (p.wf_instr_iff (Nat.two_pow_pos _)).mp hwf
  rw [Laws.RoundTrip.decode_encodeCycle c p k hcode, Machine.sample_of_fits hdata, decodeProducer_code,
    decodeConsumer_code]

/-- The control word of two decoded commands is the word they were decoded from. -/
theorem encodeCycle_ctrl_of_decode {c : Config} {w : Input} {p : ProducerCmd} {k : ConsumerCmd}
    (h : decode c w = .ok (.cycle p k)) : (encodeCycle (.cycle p k)).ctrl = w.ctrl := by
  obtain ⟨rfl, rfl, h4⟩ := Machine.decode_fields h
  obtain ⟨hcode, -, -⟩ := Machine.decodeProducer_spec w.ctrl (c.sample w.wrData) _ rfl
  rw [encodeCycle, hcode, code_decodeConsumer, ← Ctrl.eq_append_fields h4]

theorem wf_of_decode {c : Config} {w : Input} {p : ProducerCmd} {k : ConsumerCmd} (h : decode c w = .ok (.cycle p k)) :
    p.instr.wf c = true := by
  obtain ⟨hdata, hcode⟩ := Machine.decode_data h
  have hbus := Machine.sample_lt c w.wrData
  exact (p.wf_instr_iff hbus).mpr ⟨hcode, by rwa [hdata]⟩

/-! ## Instructions -/

theorem Laws.RoundTrip.statement : ∀ i : Instr, Statement i
  | .nopP => nopP
  | .push d => push d
  | .rsvP => rsvP
  | .pushOvw d => pushOvw d
  | .nopC => nopC
  | .pop => pop
  | .rsvC => rsvC
  | .peek => peek
  | .reset => reset
  | .isEmpty => isEmpty
  | .isFull => isFull
  | .len => len
  | .new params => new params

/-- The rows without a control word (30_encoding.md R79, R80). -/
theorem Instr.alone_eq_none_iff (i : Instr) :
    i.alone = none ↔ i.mnemonic ∈ ["IS_EMPTY", "IS_FULL", "LEN", "NEW"] := by
  cases i <;> simp [Instr.alone, Instr.mnemonic]

/-! ## The opcode table -/

/-- The status rows have mask 0 (30_encoding.md R79). -/
theorem statusRows_selected (w : Ctrl) : statusRows.filter (·.selects w) = statusRows := by
  revert w
  decide

theorem resetRow_selects (w : Ctrl) : resetRow.selects w = w.rst := by
  revert w
  decide

theorem portRows_of_rst {w : Ctrl} (h4 : w.rst = true) :
    (producerRows ++ consumerRows).filter (·.selects w) = [] := by
  revert w
  decide

theorem producerRows_selected {w : Ctrl} (h4 : w.rst = false) :
    (producerRows.filter (·.selects w)).map (·.mnemonic) = [(decodeProducer w.producerField 0).instr.mnemonic] := by
  revert w
  decide

theorem consumerRows_selected {w : Ctrl} (h4 : w.rst = false) :
    (consumerRows.filter (·.selects w)).map (·.mnemonic) = [(decodeConsumer w.consumerField).instr.mnemonic] := by
  revert w
  decide

end Sys2Proof

open Sys2Proof Sys2Proof.Machine

/-- Settles O8: the decoder's three cases exclude each other, and a field is its two bits. -/
theorem decodeFollowsTheFields : Obligations.DecodeFollowsTheFields := by
  unfold Obligations.DecodeFollowsTheFields
  refine ⟨fun c w => ⟨decode_of_rst c, decode_of_overwrite_absent, fun h4 h => ?_⟩, fun _ _ => rfl, fun _ => rfl⟩
  rw [decode_of_overwrite_configured h4 h, w.ctrl.producerField_eq_bits, w.ctrl.consumerField_eq_bits]
  congr 2
  · cases w.ctrl.getLsbD 3 <;> cases w.ctrl.getLsbD 2 <;> rfl
  · cases w.ctrl.getLsbD 1 <;> cases w.ctrl.getLsbD 0 <;> rfl

/-- Settles O9: the codes decode to the commands they are of, and the wires carry a well-formed element whole. -/
theorem encodedCycleDecodesToItself : Obligations.EncodedCycleDecodesToItself := by
  unfold Obligations.EncodedCycleDecodesToItself
  intro c dec hwf
  cases dec with
  | reset => rfl
  | cycle p k => exact decode_encodeCycle_of_wf k (hwf p k rfl)

/-- Settles O10: the two fields are the codes of the commands they decode to, and the element is what the wires carry. -/
theorem decodedWordEncodesToItself : Obligations.DecodedWordEncodesToItself := by
  unfold Obligations.DecodedWordEncodesToItself
  intro c w p k h
  refine ⟨encodeCycle_ctrl_of_decode h, ?_, wf_of_decode h⟩
  obtain ⟨hdata, -⟩ := decode_data h
  rintro d (rfl | rfl)
  · exact ⟨hdata, rfl⟩
  · exact ⟨hdata, rfl⟩

/-- Settles O11: the word of an instruction is the encoding of the cycle that carries it alone, where there is one. -/
theorem everyInstructionWordDecodesToIt : Obligations.EveryInstructionWordDecodesToIt := by
  unfold Obligations.EveryInstructionWordDecodesToIt
  intro c i hwf
  refine ⟨fun w hw => ?_, ?_⟩
  · obtain ⟨dec, halone, rfl⟩ := Option.map_eq_some_iff.mp hw
    exact ⟨dec, halone, Laws.RoundTrip.statement i c dec hwf halone⟩
  · rw [encode, Option.map_eq_none_iff, i.alone_eq_none_iff]

/-- Settles O13: each port's rows are told apart by the port's field, whose command the selected row names. -/
theorem opcodeRowsUnambiguous : Obligations.OpcodeRowsUnambiguous := by
  unfold Obligations.OpcodeRowsUnambiguous
  intro w
  refine ⟨statusRows_selected w, fun h4 => ⟨?_, portRows_of_rst h4⟩, fun h4 => ⟨?_, ?_⟩⟩
  · rw [resetRow_selects, h4]
  · rw [resetRow_selects, h4]
  · exact ⟨_, _, decode_of_overwrite_configured h4 (.inl rfl), producerRows_selected h4, consumerRows_selected h4⟩

/-- Settles O12: each of the nine words evaluates to its row. -/
theorem specWordsDecode : Obligations.SpecWordsDecode := by
  unfold Obligations.SpecWordsDecode
  decide

/-- Settles O14, response by response. -/
theorem responseCodes : Obligations.ResponseCodes := by
  unfold Obligations.ResponseCodes
  refine ⟨rfl, rfl, rfl, rfl, rfl, rfl, fun r => ?_, fun r => ?_⟩
  · cases r <;> decide
  · cases r <;> decide

end

section
/-! PROOFS. 30_encoding.md: the assembler (R82-R84). A line assembles to the encoding of the commands it names, exactly when
these are well formed for the configuration. -/

namespace Sys2Proof

/-- The command a producer part names, in whatever configuration (30_encoding.md R82). -/
def AsmProducer.named : AsmProducer → ProducerCmd
  | .nop       => .nopP
  | .push v    => .push v
  | .pushOvw v => .pushOvw v

theorem AsmProducer.command_eq (c : Config) (p : AsmProducer) :
    p.command c = if p.named.instr.wf c then some p.named else none := by
  cases p <;> rfl

theorem AsmProducer.command_eq_some_iff {c : Config} {p : AsmProducer} {cmd : ProducerCmd} :
    p.command c = some cmd ↔ cmd = p.named ∧ p.named.instr.wf c = true := by
  rw [p.command_eq, Option.ite_none_right_eq_some, Option.some.injEq, and_comm, eq_comm]

/-- The assembler has no name for a reserved code (30_encoding.md R82), here on the producer port. -/
theorem AsmProducer.code_named_ne_reserved (p : AsmProducer) : p.named.code ≠ 0b10#2 := by
  cases p <;> simp [AsmProducer.named, ProducerCmd.code]

theorem AsmConsumer.code_command_ne_reserved (k : AsmConsumer) : k.command.code ≠ 0b10#2 := by
  cases k <;> decide

namespace AsmLine

theorem assemble_cycle_eq_some_iff {c : Config} {p : AsmProducer} {k : AsmConsumer} {w : Input} :
    (AsmLine.cycle p k).assemble c = some w ↔
      p.named.instr.wf c = true ∧ w = encodeCycle (.cycle p.named k.command) := by
  simp [AsmLine.assemble, AsmProducer.command_eq_some_iff, eq_comm (a := w), and_assoc]

theorem assemble_cycle_eq_none_iff {c : Config} {p : AsmProducer} {k : AsmConsumer} :
    (AsmLine.cycle p k).assemble c = none ↔ p.named.instr.wf c = false := by
  simp [AsmLine.assemble, AsmProducer.command_eq]

theorem assemble_push {c : Config} {v : Nat} (k : AsmConsumer) (hv : v < 2 ^ c.dataW) :
    (AsmLine.cycle (.push v) k).assemble c = some { ctrl := 0#1 ++ (0b01#2 ++ k.command.code), wrData := v } :=
  assemble_cycle_eq_some_iff.mpr ⟨decide_eq_true hv, rfl⟩

theorem assemble_pushOvw {c : Config} {v : Nat} (k : AsmConsumer) (ho : c.hasOverwrite = true) (hv : v < 2 ^ c.dataW) :
    (AsmLine.cycle (.pushOvw v) k).assemble c = some { ctrl := 0#1 ++ (0b11#2 ++ k.command.code), wrData := v } :=
  assemble_cycle_eq_some_iff.mpr ⟨Bool.and_eq_true_iff.mpr ⟨ho, decide_eq_true hv⟩, rfl⟩

end AsmLine

/-- A program assembles line by line (30_encoding.md R82). -/
theorem assemble_map {α : Type} {c : Config} {line : α → AsmLine} {word : α → Input} {xs : List α}
    (h : ∀ x ∈ xs, (line x).assemble c = some (word x)) : assemble c (xs.map line) = some (xs.map word) := by
  induction xs with
  | nil => rfl
  | cons x xs ih =>
    obtain ⟨hx, hrest⟩ := List.forall_mem_cons.mp h
    have hxs := ih hrest
    rw [assemble] at hxs ⊢
    rw [List.map_cons, List.mapM_cons, hx, hxs]
    rfl

theorem assemble_replicate {c : Config} {l : AsmLine} {w : Input} (h : l.assemble c = some w) (n : Nat) :
    assemble c (List.replicate n l) = some (List.replicate n w) := by
  simpa using assemble_map (xs := List.replicate n ()) (fun _ _ => h)

theorem assemble_singleton {c : Config} {l : AsmLine} {w : Input} (h : l.assemble c = some w) :
    assemble c [l] = some [w] :=
  assemble_replicate h 1

end Sys2Proof

open Sys2Proof Sys2Proof.Machine

/-- Settles O15: a line that assembles names commands that are well formed, whose encoding decodes to them. -/
theorem assembledLineDecodesToItsCommands : Obligations.AssembledLineDecodesToItsCommands := by
  unfold Obligations.AssembledLineDecodesToItsCommands
  intro c
  refine ⟨fun l w hw => ?_, fun v k => ⟨?_, ?_⟩⟩
  · cases l with
    | reset =>
      cases hw
      exact ⟨Nat.two_pow_pos _, .inl ⟨rfl, rfl, rfl, rfl⟩⟩
    | cycle p k =>
      obtain ⟨hwf, rfl⟩ := AsmLine.assemble_cycle_eq_some_iff.mp hw
      obtain ⟨-, hdata⟩ := (p.named.wf_instr_iff (Nat.two_pow_pos _)).mp hwf
      obtain ⟨-, -, hp, hk⟩ := Laws.RoundTrip.encodeCycle_fields p.named k.command
      refine ⟨hdata, .inr ⟨p, k, p.named, rfl, AsmProducer.command_eq_some_iff.mpr ⟨rfl, hwf⟩,
        decode_encodeCycle_of_wf _ hwf, ?_, ?_, ?_, ?_, ?_⟩⟩
      · rw [hp]
        exact p.code_named_ne_reserved
      · rw [hk]
        exact k.code_command_ne_reserved
      · rintro rfl
        exact ⟨rfl, rfl⟩
      · rintro v rfl
        exact ⟨rfl, rfl⟩
      · rintro v rfl
        exact ⟨rfl, rfl⟩
  · rw [AsmLine.assemble_cycle_eq_none_iff]
    exact decide_eq_false_iff_not.trans not_lt
  · rw [AsmLine.assemble_cycle_eq_none_iff, or_comm, ← not_lt, ← decide_eq_false_iff_not]
    exact Bool.and_eq_false_iff

/-- Settles O16: a program assembles line by line, and each line of an expansion to its control word. -/
theorem pseudoInstructionExpansions : Obligations.PseudoInstructionExpansions := by
  unfold Obligations.PseudoInstructionExpansions
  intro c v hv
  refine ⟨assemble_singleton rfl, assemble_singleton (AsmLine.assemble_push .pop hv),
    assemble_singleton (AsmLine.assemble_push .peek hv),
    fun ho => assemble_singleton (AsmLine.assemble_pushOvw .pop ho hv), fun vs hvs => ?_, assemble_replicate rfl⟩
  exact assemble_map fun x hx => AsmLine.assemble_push .nop (hvs x hx)

end

section
/-! PROOFS. 30_encoding.md: what a cycle does for the codes that carry no command (R76), for a RESET word (R73), and for the
codes that HAS_OVERWRITE = 0 leaves out (R77). -/

namespace Sys2Proof.Machine

/-- An instruction that runs two commands with the signals of the NOPs writes no state and both ports answer IDLE
(30_encoding.md R76). -/
theorem exec_of_nop_signals {s : State} {i : Instr} {p : ProducerCmd} {k : ConsumerCmd} (h : s.inv)
    (hs : s.resetSeen = true) (hrun : exec i s = runPair p k s) (hp : producerSignals p s false = nopPSignals)
    (hk : consumerSignals k s = .ok (nopCSignals s)) :
    ∃ t, exec i s = .next t ∧ t.arch = s.arch ∧ t.out.wrResp = .idle ∧ t.out.rdResp = .idle ∧ t.out.ramWe = false := by
  have hnext : exec i s = .next (s.edge (p.data s.wrBus) nopPSignals (nopCSignals s)) := by
    rw [hrun, runPair_ok hk, ← hp]
    rfl
  exact ⟨_, hnext, edge_quiet h hs _ rfl rfl rfl, rfl, rfl, rfl⟩

theorem whenOverwrite_of_absent {s : State} (ho : s.cfg.hasOverwrite = false) (k : Host.Outcome State Fault Refusal) :
    whenOverwrite s k = .refused .overwriteNotConfigured := by
  simp [whenOverwrite, ho]

theorem step_of_overwrite_absent {s : State} {w : Input} {rest : List Input} (hs : s.resetSeen = true)
    (ho : s.cfg.hasOverwrite = false) (hd : s.drives w rest) (h4 : w.ctrl.rst = false) (h3 : w.ctrl.wrOvw = true) :
    step s = .refused .overwriteNotConfigured := by
  rw [step_drives hd, runInput, State.takeInput_cfg, decode_of_overwrite_absent h4 ho h3]
  exact whenReady_of hs _

end Sys2Proof.Machine

open Sys2Proof Sys2Proof.Machine

/-- Settles O21: each of the four runs beside the other port's NOP, and its signals are those of its own port's NOP. -/
theorem noOperationsLeaveTheState : Obligations.NoOperationsLeaveTheState := by
  unfold Obligations.NoOperationsLeaveTheState
  intro s i hinv hs hi
  rcases hi with rfl | rfl | rfl | ⟨rfl, ho⟩
  · exact exec_of_nop_signals hinv hs (exec_producer .nopP hs (.inr rfl)) rfl rfl
  · exact exec_of_nop_signals hinv hs (exec_consumer .nopC hs) rfl rfl
  · exact exec_of_nop_signals hinv hs (exec_consumer .rsvC hs) rfl rfl
  · exact exec_of_nop_signals hinv hs (exec_producer .rsvP hs (.inl ho)) rfl rfl

/-- Settles O29: the step is the edge of a RESET cycle, whose registers and storage are constants. -/
theorem resetCycleIgnoresItsCommands : Obligations.ResetCycleIgnoresItsCommands := by
  unfold Obligations.ResetCycleIgnoresItsCommands
  intro s w rest hd h4
  have hstep : step s = .next (s.takeInput w rest).resetEdge := step_reset hd h4
  exact ⟨hstep, _, hstep, rfl, rfl, State.resetEdge_arch (s.takeInput w rest)⟩

/-- Settles O24: both rows and the decoder refuse once the machine has been reset. -/
theorem overwriteCodesRefusedWhenAbsent : Obligations.OverwriteCodesRefusedWhenAbsent := by
  unfold Obligations.OverwriteCodesRefusedWhenAbsent
  intro s hs ho
  refine ⟨?_, fun d => ?_, fun w rest hd h4 h3 => step_of_overwrite_absent hs ho hd h4 h3⟩
  · rw [exec, execRsvP, whenReady_of hs, whenOverwrite_of_absent ho]
  · rw [exec, execPushOvw, whenReady_of hs, whenOverwrite_of_absent ho]

end

section
/-! PROOFS. 40_construction.md: RoundUpToPow2 as the least power of two (R100), NEW with legal and with illegal parameters
(R101-R103), the buffer after RESET (R104), and the configuration, which only NEW sets (R106). -/

namespace Sys2Proof

/-! ## RoundUpToPow2 -/

theorem le_roundUpToPow2 (n : Nat) : n ≤ roundUpToPow2 n :=
  le_roundUpFrom n 1 n (by simpa using Nat.lt_two_pow_self.le)

/-- The loop doubles only what is below `n`, so it passes no multiple `2 ^ j * p` of its start that is at least `n`. -/
theorem roundUpFrom_le (fuel : Nat) {p n j : Nat} (h : n ≤ 2 ^ j * p) : roundUpFrom fuel p n ≤ 2 ^ j * p := by
  have hstart : ∀ j p : Nat, p ≤ 2 ^ j * p := fun j p => Nat.le_mul_of_pos_left p (Nat.two_pow_pos j)
  induction fuel generalizing p j with
  | zero => exact hstart j p
  | succ fuel ih =>
    unfold roundUpFrom
    split
    next hlt =>
      cases j with
      | zero => omega
      | succ j =>
        rw [pow_succ, mul_assoc] at h ⊢
        exact ih h
    next => exact hstart j p

theorem roundUpToPow2_le_two_pow {n j : Nat} (h : n ≤ 2 ^ j) : roundUpToPow2 n ≤ 2 ^ j := by
  simpa [roundUpToPow2] using roundUpFrom_le n (p := 1) (by simpa using h)

/-! ## Elaboration -/

theorem Config.buildable_iff (c : Config) (maxPtrW : Option Nat) :
    c.buildable maxPtrW = true ↔ ∀ bound, maxPtrW = some bound → c.capacity ≤ 2 ^ bound := by
  cases maxPtrW with
  | none => simp [Config.buildable]
  | some bound =>
    rw [← Bool.not_eq_false, c.buildable_some_eq_false_iff, not_lt]
    simp

/-- Only TWO_CURSOR, which keeps one slot unused, can leave no usable slot (40_construction.md R105). -/
theorem Config.usable_eq_zero_iff (c : Config) : c.usable = 0 ↔ c.mode = .twoCursor ∧ c.capacity = 1 := by
  have hpos := c.capacity_pos
  cases hm : c.mode with
  | twoCursor =>
    rw [Machine.State.usable_of_twoCursor hm]
    simp only [true_and]
    omega
  | countTracked =>
    rw [Machine.State.usable_of_countTracked hm]
    simpa using hpos.ne'

namespace Machine

theorem elaborateMode_error {m : ModeParam} (h2 : m ≠ .twoCursor) (hc : m ≠ .countTracked) :
    elaborateMode m = .error .invalidConfiguration := by
  cases m with
  | twoCursor => exact absurd rfl h2
  | countTracked => exact absurd rfl hc
  | other code => rfl

/-- Whatever is offered for MODE, it is legal or the one refusal stands. -/
theorem elaborateMode_cases (m : ModeParam) :
    (∃ mode, elaborateMode m = .ok mode) ∨ elaborateMode m = .error .invalidConfiguration := by
  cases m with
  | twoCursor => exact .inl ⟨_, rfl⟩
  | countTracked => exact .inl ⟨_, rfl⟩
  | other code => exact .inr rfl

theorem elaborateMode_names {m : ModeParam} {mode : Mode} (h : elaborateMode m = .ok mode) :
    (m = .twoCursor → mode = .twoCursor) ∧ (m = .countTracked → mode = .countTracked) := by
  cases m with
  | twoCursor | countTracked => cases h; simp
  | other code => cases h

theorem elaborateOverwrite_error {n : Nat} (h : 2 ≤ n) : elaborateOverwrite n = .error .invalidConfiguration := by
  obtain ⟨m, rfl⟩ := Nat.exists_eq_add_of_le' h
  rfl

theorem elaborate_of_reqCapacity_zero {p : NewParams} (h : p.reqCapacity = 0) :
    elaborate p = .error .invalidCapacity := by
  simp [elaborate, h]

/-- Each of the three other parameters is refused with the same reason, so their order does not show. -/
theorem elaborate_of_illegal {p : NewParams} (hreq : 1 ≤ p.reqCapacity)
    (h : p.dataW = 0 ∨ (p.mode ≠ .twoCursor ∧ p.mode ≠ .countTracked) ∨ 2 ≤ p.hasOverwrite) :
    elaborate p = .error .invalidConfiguration := by
  have hreq0 : p.reqCapacity ≠ 0 := Nat.one_le_iff_ne_zero.mp hreq
  unfold elaborate
  rw [if_neg hreq0]
  split
  next => rfl
  next hdata =>
    rcases h with h | ⟨h2, hc⟩ | hovw
    · exact absurd h hdata
    · simp only [elaborateMode_error h2 hc]
    · rcases elaborateMode_cases p.mode with ⟨mode, hm⟩ | hm <;>
        simp only [hm, elaborateOverwrite_error hovw]

/-- Legal parameters that the implementation can build elaborate to the configuration they name. -/
theorem elaborate_ok_of_wf {p : NewParams} (hwf : p.wf = true)
    (hbound : ∀ bound, p.maxPtrW = some bound → roundUpToPow2 p.reqCapacity ≤ 2 ^ bound) :
    ∃ c, elaborate p = .ok c ∧ elaborateMode p.mode = .ok c.mode ∧ c.hasOverwrite = decide (p.hasOverwrite = 1) := by
  obtain ⟨c, hreq, -, hmode, hovw, helab⟩ := elaborate_of_wf hwf
  have hbuild : c.buildable p.maxPtrW = true := by rwa [c.buildable_iff, Config.capacity, hreq]
  exact ⟨c, by rw [helab, if_pos hbuild], hmode, hovw⟩

theorem exec_new_of_elaborate_ok {p : NewParams} {c : Config} (h : elaborate p = .ok c) (s : State) :
    exec (.new p) s = .next (s.powerOn c) := by
  simp [exec, execNew, h]

/-! ## A buffer without elements -/

namespace State

theorem contents_of_len_zero {s : State} (h : s.len = 0) : s.contents = [] := by simp [contents, h]

theorem live_of_len_zero {s : State} (h : s.len = 0) (i : Nat) : s.live i = false := by simp [live, h]

end State

theorem exec_reset (s : State) : exec .reset s = .next s.resetEdge := rfl

theorem resetEdge_isEmpty (s : State) : s.resetEdge.isEmpty = true :=
  (State.isEmpty_iff s.cfg.capacity_pos s.cfg.capacity_pos).mpr (resetEdge_len s)

theorem resetEdge_isFull_iff (s : State) :
    s.resetEdge.isFull = true ↔ s.cfg.mode = .twoCursor ∧ s.cfg.capacity = 1 := by
  rw [State.isFull_iff s.cfg.capacity_pos s.cfg.capacity_pos, resetEdge_len, State.resetEdge_cfg, eq_comm,
    Config.usable_eq_zero_iff]

/-! ## What an instruction can answer -/

theorem whenReady_eq_next_iff {s t : State} {k : Host.Outcome State Fault Refusal} :
    whenReady s k = .next t ↔ s.resetSeen = true ∧ k = .next t := by
  cases hs : s.resetSeen <;> simp [whenReady, hs]

theorem whenOverwrite_eq_next_iff {s t : State} {k : Host.Outcome State Fault Refusal} :
    whenOverwrite s k = .next t ↔ s.cfg.hasOverwrite = true ∧ k = .next t := by
  cases ho : s.cfg.hasOverwrite <;> simp [whenOverwrite, ho]

theorem runCycle_eq_next {s t : State} {d : Elem} {producer : Bool → ProducerSignals}
    {consumer : Except Fault ConsumerSignals} (h : runCycle s d producer consumer = .next t) :
    ∃ c, consumer = .ok c ∧ t = s.edge d (producer c.popAcc) c := by
  cases consumer with
  | error f => cases h
  | ok c => cases h; exact ⟨c, rfl, rfl⟩

/-- Every next state of an instruction, whether it is well formed or not: the edge of a cycle, the edge of a RESET cycle, a
status read, or an instance at power-on. -/
theorem exec_next_cases {i : Instr} {s t : State} (h : exec i s = .next t) :
    (s.resetSeen = true ∧ ∃ d p c, t = s.edge d p c) ∨
    (i = .reset ∧ t = s.resetEdge) ∨
    ((i = .isEmpty ∨ i = .isFull ∨ i = .len) ∧ ∃ o, t = { s with out := o }) ∨
    (∃ params c, i = .new params ∧ elaborate params = .ok c ∧ t = s.powerOn c) := by
  cases i with
  | nopP | push _ | nopC | pop | rsvC | peek =>
    obtain ⟨hs, hrun⟩ := whenReady_eq_next_iff.mp h
    obtain ⟨c, -, ht⟩ := runCycle_eq_next hrun
    exact .inl ⟨hs, _, _, c, ht⟩
  | rsvP | pushOvw _ =>
    obtain ⟨hs, hovw⟩ := whenReady_eq_next_iff.mp h
    obtain ⟨-, hrun⟩ := whenOverwrite_eq_next_iff.mp hovw
    obtain ⟨c, -, ht⟩ := runCycle_eq_next hrun
    exact .inl ⟨hs, _, _, c, ht⟩
  | reset => cases h; exact .inr (.inl ⟨rfl, rfl⟩)
  | isEmpty | isFull | len => cases h; exact .inr (.inr (.inl ⟨by simp, _, rfl⟩))
  | new params =>
    cases helab : elaborate params with
    | error r => rw [exec_new_of_elaborate_error helab] at h; cases h
    | ok c =>
      rw [exec_new_of_elaborate_ok helab] at h
      cases h
      exact .inr (.inr (.inr ⟨params, c, rfl, helab, rfl⟩))

theorem step_cfg {s t : State} (h : step s = .next t) : t.cfg = s.cfg := by
  obtain ⟨w, rest, -, ⟨-, rfl⟩ | ⟨p, c, x, -, -, -, -, rfl, -⟩⟩ := step_next_cases h
  · rfl
  · rfl

theorem exec_cfg {i : Instr} {s t : State} (hnew : ∀ p, i ≠ .new p) (h : exec i s = .next t) : t.cfg = s.cfg := by
  obtain ⟨-, d, p, c, rfl⟩ | ⟨-, rfl⟩ | ⟨-, o, rfl⟩ | ⟨params, c, hi, -, -⟩ := exec_next_cases h
  · rfl
  · rfl
  · rfl
  · exact absurd hi (hnew params)

end Machine

end Sys2Proof

open Sys2Proof Sys2Proof.Machine

/-- Settles O1: the loop only doubles, ends at or above `n`, and passes no power of two that is at least `n`. -/
theorem roundUpIsLeastPowerOfTwo : Obligations.RoundUpIsLeastPowerOfTwo := by
  unfold Obligations.RoundUpIsLeastPowerOfTwo
  constructor
  · intro n _
    obtain ⟨k, hk⟩ := roundUpFrom_eq_pow n 1 n
    have hpow : roundUpToPow2 n = 2 ^ k := by rw [roundUpToPow2, hk, mul_one]
    exact ⟨k, hpow, hpow ▸ le_roundUpToPow2 n, fun j hj => hpow ▸ roundUpToPow2_le_two_pow hj⟩
  · intro k
    exact le_antisymm (roundUpToPow2_le_two_pow le_rfl) (le_roundUpToPow2 _)

/-- Settles O4: elaboration answers the configuration named, and its power-on state meets the invariant. -/
theorem newBuildsPowerOnInstance : Obligations.NewBuildsPowerOnInstance := by
  unfold Obligations.NewBuildsPowerOnInstance
  intro p s hwf hbound
  obtain ⟨c, helab, hmode, hovw⟩ := elaborate_ok_of_wf hwf hbound
  obtain ⟨hlegal, hreq, hdata⟩ := elaborate_ok helab
  obtain ⟨-, hread, hwrite, -⟩ := powerOn_inv s hlegal
  have hcap : c.capacity = roundUpToPow2 p.reqCapacity := by rw [Config.capacity, hreq]
  obtain ⟨htwo, hcount⟩ := elaborateMode_names hmode
  exact ⟨s.powerOn c, exec_new_of_elaborate_ok helab s, hreq, hdata, htwo, hcount, hovw, hcap, hread, hwrite, fun _ => rfl,
    rfl, rfl, rfl⟩

/-- Settles O6: each of the three is refused with InvalidConfiguration, whichever is looked at first. -/
theorem newRefusesIllegalParameters : Obligations.NewRefusesIllegalParameters := by
  unfold Obligations.NewRefusesIllegalParameters
  intro p s hreq hillegal
  exact exec_new_of_elaborate_error (elaborate_of_illegal hreq hillegal) s

/-- Settles O30: RESET leaves no element, and a buffer without elements is full exactly where USABLE is 0. -/
theorem afterResetTheBufferIsEmpty : Obligations.AfterResetTheBufferIsEmpty := by
  unfold Obligations.AfterResetTheBufferIsEmpty
  intro s t h
  rw [exec_reset] at h
  cases h
  have hlen := resetEdge_len s
  exact ⟨resetEdge_isEmpty s, hlen, State.contents_of_len_zero hlen, State.live_of_len_zero hlen, resetEdge_isFull_iff s⟩

/-- Settles O54: of the updates that make a next state only the one of NEW sets the configuration. -/
theorem capacityNeverChanges : Obligations.CapacityNeverChanges := by
  unfold Obligations.CapacityNeverChanges
  exact ⟨fun s t h => step_cfg h, fun s t i hnew h => exec_cfg hnew h⟩

/-- Settles O5: REQ_CAPACITY is looked at before the other parameters (log 10). -/
theorem newRefusesZeroCapacity : Obligations.NewRefusesZeroCapacity := by
  unfold Obligations.NewRefusesZeroCapacity
  intro p s h
  exact exec_new_of_elaborate_error (elaborate_of_reqCapacity_zero h) s

end

section
/-! PROOFS. 41_producer.md: PUSH and PUSH_OVW (R111, R112), and what the producer's commands and the commands that write no
state leave unchanged (R110, R130, R132; 20_memory.md R59). The facts about the edge are stated for the signals of any two
commands. -/

namespace Sys2Proof.Machine

/-! ## The edge, register by register and slot by slot -/

namespace State

theorem countAfter_of_twoCursor {s : State} (h : s.cfg.mode = .twoCursor) (up down : Nat) :
    s.countAfter up down = s.countReg := by
  simp [countAfter, h]

theorem countAfter_self (s : State) (n : Nat) : s.countAfter n n = s.countReg := by
  cases hm : s.cfg.mode with
  | twoCursor => exact countAfter_of_twoCursor hm n n
  | countTracked => simp [countAfter, hm]

theorem edge_countReg_eq_countAfter (s : State) (d : Elem) (p : ProducerSignals) (c : ConsumerSignals) :
    (s.edge d p c).countReg = s.countAfter p.wAcc.toNat (c.popAcc.toNat + p.drop.toNat) := by
  cases hm : s.cfg.mode with
  | twoCursor => simp [countAfter, hm]
  | countTracked => simp [countAfter, hm, Nat.sub_sub]

theorem edge_readIndex_of_kept {s : State} (hr : s.readIndex < s.cfg.capacity) (d : Elem) {p : ProducerSignals}
    {c : ConsumerSignals} (hpop : c.popAcc = false) (hdrop : p.drop = false) :
    (s.edge d p c).readIndex = s.readIndex := by
  rw [edge_readIndex, hpop, hdrop]
  exact s.cfg.advance_zero hr

/-- A buffer that is not full can hold an element. -/
theorem usable_ne_zero_of_not_full {s : State} (hr : s.readIndex < s.cfg.capacity) (hw : s.writeIndex < s.cfg.capacity)
    (hc : s.consistent) (hf : s.isFull = false) : s.cfg.usable ≠ 0 := by
  intro h0
  have hle := hc.len_le_usable
  have hfull : s.isFull = true := (isFull_iff hr hw).mpr (by omega)
  simp [hf] at hfull

end State

section
variable {s : State} (h : s.inv) (hs : s.resetSeen = true) (d : Elem) {p : ProducerSignals} {c : ConsumerSignals}
  (fit : SignalsFit s p.wAcc c.popAcc p.drop)
include h hs fit

/-- After an element was accepted the buffer holds one, unless USABLE is 0. -/
theorem edge_len_eq_zero_iff (hwrite : p.wAcc = true) : (s.edge d p c).len = 0 ↔ s.cfg.usable = 0 := by
  obtain ⟨hr, hw, hc⟩ := h.ready hs
  obtain ⟨hlen, -, hone, hle, -⟩ := edge_len hr hw hc d fit
  rw [hwrite, Bool.toNat_true] at hlen
  constructor
  · intro h0
    have hempty : s.len = 0 := by omega
    cases hd : p.drop with
    | true =>
      obtain ⟨-, hfull⟩ := fit.drop_full hd
      rw [← (State.isFull_iff hr hw).mp hfull, hempty]
    | false =>
      cases hp : c.popAcc with
      | true =>
        have hne := fit.pop_nonempty hp
        rw [(State.isEmpty_iff hr hw).mpr hempty] at hne
        cases hne
      | false =>
        simp only [hp, hd, Bool.toNat_false] at hlen
        omega
  · intro h0
    simpa [h0] using hle

/-- A slot that no accepted element goes to and no removed element leaves reads as before (20_memory.md R59). -/
theorem edge_read_of_untouched {a : Nat} (hwrite : p.wAcc = true → a ≠ s.writeIndex)
    (hremove : c.popAcc = true ∨ p.drop = true → a ≠ s.readIndex) :
    (s.edge d p c).storage.read a = s.storage.read a := by
  rw [edge_read h hs d fit, if_neg (fun ⟨hacc, ha⟩ => hwrite hacc ha), if_neg (fun ⟨hgone, ha⟩ => hremove hgone ha)]

theorem edge_read_of_kept {a : Nat} (hpop : c.popAcc = false) (hdrop : p.drop = false) (ha : a ≠ s.writeIndex) :
    (s.edge d p c).storage.read a = s.storage.read a :=
  edge_read_of_untouched h hs d fit (fun _ => ha) (by simp [hpop, hdrop])

theorem edge_read_writeIndex (hwrite : p.wAcc = true) :
    (s.edge d p c).storage.read s.writeIndex = if s.cfg.usable = 0 then none else some d := by
  rw [edge_read h hs d fit, if_pos ⟨hwrite, rfl⟩]
  simp only [← edge_len_eq_zero_iff h hs d fit hwrite, Nat.pos_iff_ne_zero, ne_eq, ite_not]

/-- The slot of an element removed holds no value, unless the accepted element went there. -/
theorem edge_read_readIndex_of_removed (hremove : c.popAcc = true ∨ p.drop = true) (hne : s.readIndex ≠ s.writeIndex) :
    (s.edge d p c).storage.read s.readIndex = none := by
  rw [edge_read h hs d fit, if_neg (fun ⟨_, ha⟩ => hne ha), if_pos ⟨hremove, rfl⟩]

end

/-! ## One port's command alone in its cycle -/

theorem exec_producer_eq_next_iff (p : ProducerCmd) {s t : State} :
    exec p.instr s = .next t ↔
      s.resetSeen = true ∧ (s.cfg.hasOverwrite = true ∨ p.code.getLsbD 1 = false) ∧
      t = s.edge (p.data s.wrBus) (producerSignals p s false) (nopCSignals s) := by
  constructor
  · intro hrun
    cases p with
    | nopP | push _ =>
      obtain ⟨hs, hcycle⟩ := whenReady_eq_next_iff.mp hrun
      cases hcycle
      exact ⟨hs, .inr (by simp [ProducerCmd.code]), rfl⟩
    | rsvP | pushOvw _ =>
      obtain ⟨hs, hovw⟩ := whenReady_eq_next_iff.mp hrun
      obtain ⟨ho, hcycle⟩ := whenOverwrite_eq_next_iff.mp hovw
      cases hcycle
      exact ⟨hs, .inl ho, rfl⟩
  · rintro ⟨hs, ho, rfl⟩
    rw [exec_producer p hs ho]
    rfl

theorem exec_consumer_eq_next_iff (k : ConsumerCmd) {s t : State} :
    exec k.instr s = .next t ↔
      s.resetSeen = true ∧ ∃ x, consumerSignals k s = .ok x ∧ t = s.edge s.wrBus nopPSignals x := by
  constructor
  · intro hrun
    have hready : exec k.instr s = whenReady s (runPair .nopP k s) := by cases k <;> rfl
    rw [hready] at hrun
    obtain ⟨hs, hpair⟩ := whenReady_eq_next_iff.mp hrun
    exact ⟨hs, runCycle_eq_next hpair⟩
  · rintro ⟨hs, x, hx, rfl⟩
    rw [exec_consumer k hs, runPair_ok hx]
    rfl

theorem signalsFit_alone (p : ProducerCmd) (s : State) :
    SignalsFit s (producerSignals p s false).wAcc (nopCSignals s).popAcc (producerSignals p s false).drop :=
  signalsFit p nofun

theorem pushSignals_of_full {s : State} (hf : s.isFull = true) : pushSignals s = raiseFull := if_pos hf

theorem pushSignals_of_not_full {s : State} (hf : s.isFull = false) :
    pushSignals s = { wAcc := true, drop := false, resp := .ok } := by
  simp [pushSignals, hf]

theorem pushSignals_drop (s : State) : (pushSignals s).drop = false := by
  cases hf : s.isFull with
  | true => rw [pushSignals_of_full hf]; rfl
  | false => rw [pushSignals_of_not_full hf]

theorem isFull_of_pushSignals_resp {s : State} (hresp : (pushSignals s).resp = .full) : s.isFull = true := by
  cases hf : s.isFull with
  | true => rfl
  | false => rw [pushSignals_of_not_full hf] at hresp; cases hresp

theorem pushOvwSignals_drop (s : State) : (pushOvwSignals s false).drop = s.isFull := Bool.and_true _

/-- A rejected PUSH writes no storage, no cursor and no count (41_producer.md R111). -/
theorem edge_push_of_full {s : State} (h : s.inv) (hs : s.resetSeen = true) (hf : s.isFull = true) (d : Elem) :
    (s.edge d (pushSignals s) (nopCSignals s)).arch = s.arch := by
  rw [pushSignals_of_full hf]
  exact edge_quiet h hs d rfl rfl rfl

/-- The signals of a cycle of a command that writes no state: none of the three is set. -/
theorem exec_quiet_eq_next {i : Instr} {s t : State}
    (hi : i = .nopP ∨ i = .rsvP ∨ i = .nopC ∨ i = .rsvC ∨ i = .peek) (hrun : exec i s = .next t) :
    s.resetSeen = true ∧
      ∃ d p c, t = s.edge d p c ∧ p.wAcc = false ∧ p.drop = false ∧ c.popAcc = false := by
  have hconsumer : ∀ k : ConsumerCmd, k ≠ .pop → exec k.instr s = .next t → s.resetSeen = true ∧
      ∃ d p c, t = s.edge d p c ∧ p.wAcc = false ∧ p.drop = false ∧ c.popAcc = false := by
    intro k hk hrun
    obtain ⟨hs, x, hx, ht⟩ := (exec_consumer_eq_next_iff k).mp hrun
    obtain ⟨hpop, -, -⟩ := consumerSignals_closed hx
    exact ⟨hs, _, _, x, ht, rfl, rfl, Bool.eq_false_iff.mpr fun hx => hk (hpop.mp hx).1⟩
  rcases hi with rfl | rfl | rfl | rfl | rfl
  · obtain ⟨hs, -, ht⟩ := (exec_producer_eq_next_iff .nopP).mp hrun
    exact ⟨hs, _, _, _, ht, rfl, rfl, rfl⟩
  · obtain ⟨hs, -, ht⟩ := (exec_producer_eq_next_iff .rsvP).mp hrun
    exact ⟨hs, _, _, _, ht, rfl, rfl, rfl⟩
  · exact hconsumer .nopC nofun hrun
  · exact hconsumer .rsvC nofun hrun
  · exact hconsumer .peek nofun hrun

end Sys2Proof.Machine

open Sys2Proof Sys2Proof.Machine

/-- Settles O22: on a full buffer PUSH sets no signal that writes state; on another one it accepts an element and removes none. -/
theorem pushStoresOrReportsFull : Obligations.PushStoresOrReportsFull := by
  unfold Obligations.PushStoresOrReportsFull
  intro s d hinv hs
  obtain ⟨hr, hw, hc⟩ := hinv.ready hs
  have fit := signalsFit_alone (.push d) s
  refine ⟨_, (exec_producer_eq_next_iff (.push d)).mpr ⟨hs, .inr (by simp [ProducerCmd.code]), rfl⟩,
    fun hf => ?_, fun hf => ?_⟩
  · have hsig : producerSignals (.push d) s false = raiseFull := pushSignals_of_full hf
    exact ⟨edge_push_of_full hinv hs hf d, by rw [hsig]; rfl, by rw [hsig]; rfl⟩
  · have hsig : producerSignals (.push d) s false = { wAcc := true, drop := false, resp := .ok } :=
      pushSignals_of_not_full hf
    rw [hsig] at fit ⊢
    refine ⟨?_, fun a ha => edge_read_of_kept hinv hs d fit rfl rfl ha, s.cfg.advance_eq_mod _ 1,
      State.edge_readIndex_of_kept hr d rfl rfl, State.edge_countReg_eq_countAfter .., rfl, rfl, rfl⟩
    have hread := edge_read_writeIndex hinv hs d fit rfl
    rwa [if_neg (State.usable_ne_zero_of_not_full hr hw hc hf)] at hread

/-- Settles O23: PUSH_OVW always accepts its element, and alone in its cycle drops one exactly where the buffer is full. -/
theorem pushOvwStoresAndDropsOldest : Obligations.PushOvwStoresAndDropsOldest := by
  unfold Obligations.PushOvwStoresAndDropsOldest
  intro s d hinv hs ho
  obtain ⟨hr, hw, hc⟩ := hinv.ready hs
  have fit := signalsFit_alone (.pushOvw d) s
  have hdrop : (producerSignals (.pushOvw d) s false).drop = s.isFull := pushOvwSignals_drop s
  have hcount := State.edge_countReg_eq_countAfter s d (producerSignals (.pushOvw d) s false) (nopCSignals s)
  refine ⟨_, (exec_producer_eq_next_iff (.pushOvw d)).mpr ⟨hs, .inl ho, rfl⟩, rfl, rfl, rfl, s.cfg.advance_eq_mod _ 1,
    edge_read_writeIndex hinv hs d fit rfl, fun hf => ?_, fun hf => ?_⟩
  · rw [hf] at hdrop
    rw [hdrop] at hcount
    exact ⟨State.edge_readIndex_of_kept hr d rfl hdrop, hcount, fun a ha => edge_read_of_kept hinv hs d fit rfl hdrop ha⟩
  · rw [hf] at hdrop
    have hread := State.edge_readIndex s d (producerSignals (.pushOvw d) s false) (nopCSignals s)
    obtain ⟨hlen, -⟩ := edge_len hr hw hc d fit
    rw [hdrop] at hread hcount hlen
    exact ⟨hread.trans (s.cfg.advance_eq_mod _ 1), hcount.trans (s.countAfter_self 1), hlen,
      edge_read_readIndex_of_removed hinv hs d fit (.inr hdrop),
      fun a haw har => edge_read_of_untouched hinv hs d fit (fun _ => haw) (fun _ => har)⟩

/-- Settles O32: none of the five sets a signal that moves a cursor or writes a slot. -/
theorem quietCommandsFrame : Obligations.QuietCommandsFrame := by
  unfold Obligations.QuietCommandsFrame
  intro s t i hinv hi hrun
  obtain ⟨hs, d, p, c, rfl, hwrite, hdrop, hpop⟩ := exec_quiet_eq_next hi hrun
  have harch := edge_quiet hinv hs d hwrite hdrop hpop
  exact ⟨congrArg Arch.readIndex harch, congrArg Arch.writeIndex harch, congrArg Arch.countReg harch,
    fun a => congrArg (·.storage.read a) harch, rfl, rfl, rfl, rfl, rfl, rfl⟩

/-- Settles O33: PUSH removes no element, and answers FULL only where its cycle writes nothing. -/
theorem pushFrame : Obligations.PushFrame := by
  unfold Obligations.PushFrame
  intro s t d hinv hrun
  obtain ⟨hs, -, rfl⟩ := (exec_producer_eq_next_iff (.push d)).mp hrun
  obtain ⟨hr, -, -⟩ := hinv.ready hs
  have fit := signalsFit_alone (.push d) s
  have hdrop : (producerSignals (.push d) s false).drop = false := pushSignals_drop s
  refine ⟨State.edge_readIndex_of_kept hr d rfl hdrop, fun hm => ?_,
    fun a ha => edge_read_of_kept hinv hs d fit rfl hdrop ha, fun hresp => ?_, rfl, rfl, rfl, rfl, rfl, rfl⟩
  · rw [State.edge_countReg_eq_countAfter, State.countAfter_of_twoCursor hm]
  · have harch := edge_push_of_full hinv hs (isFull_of_pushSignals_resp hresp) d
    exact ⟨congrArg Arch.writeIndex harch, congrArg Arch.countReg harch, fun a => congrArg (·.storage.read a) harch⟩

/-- Settles O34: PUSH_OVW alone in its cycle removes an element only where the buffer is full. -/
theorem pushOvwFrame : Obligations.PushOvwFrame := by
  unfold Obligations.PushOvwFrame
  intro s t d hinv hrun
  obtain ⟨hs, -, rfl⟩ := (exec_producer_eq_next_iff (.pushOvw d)).mp hrun
  obtain ⟨hr, -, -⟩ := hinv.ready hs
  have fit := signalsFit_alone (.pushOvw d) s
  have hdrop : (producerSignals (.pushOvw d) s false).drop = s.isFull := pushOvwSignals_drop s
  refine ⟨fun hf => State.edge_readIndex_of_kept hr d rfl (hdrop.trans hf), fun hm => ?_, fun a haw har => ?_,
    rfl, rfl, rfl, rfl, rfl, rfl⟩
  · rw [State.edge_countReg_eq_countAfter, State.countAfter_of_twoCursor hm]
  · refine edge_read_of_untouched hinv hs d fit (fun _ => haw) fun hremove => ?_
    rcases hremove with hpop | hd
    · cases hpop
    · exact har (hdrop.symm.trans hd)

end

section
/-! PROOFS. 42_consumer.md: POP and PEEK (R131, R132), and what POP leaves unchanged (20_memory.md R59). POP's cycle is the
edge of one accepted removal, PEEK's and that of an answer EMPTY is an edge that changes nothing. -/

namespace Sys2Proof.Machine

/-! ## The edge of a cycle that stores nothing -/

namespace State

theorem contents_of_arch {a b : State} (h : a.arch = b.arch) : a.contents = b.contents := by
  have hlen := len_of_arch h
  simp only [arch, Arch.mk.injEq] at h
  simp [contents, hlen, h]

theorem edge_writeIndex_of_kept {s : State} (hw : s.writeIndex < s.cfg.capacity) (d : Elem) {p : ProducerSignals}
    (c : ConsumerSignals) (hwrite : p.wAcc = false) : (s.edge d p c).writeIndex = s.writeIndex := by
  rw [edge_writeIndex, hwrite]
  exact s.cfg.advance_zero hw

end State

section
variable {s : State} (h : s.inv) (hs : s.resetSeen = true) (d : Elem) {p : ProducerSignals} {c : ConsumerSignals}
  (fit : SignalsFit s p.wAcc c.popAcc p.drop)
include h hs fit

/-- Without an accepted element the vacated slot holds no value, the write cursor's own slot on a full buffer too. -/
theorem edge_read_readIndex_of_popped (hwrite : p.wAcc = false) (hpop : c.popAcc = true) :
    (s.edge d p c).storage.read s.readIndex = none := by
  rw [edge_read h hs d fit, if_neg (by simp [hwrite]), if_pos ⟨.inl hpop, rfl⟩]

/-- The popped element stood before all that are held after the edge (44_cycle.md R182). -/
theorem contents_eq_cons_edge_contents {v : Elem} (hwrite : p.wAcc = false) (hpop : c.popAcc = true)
    (hv : s.storage.read s.readIndex = some v) : s.contents = v :: (s.edge d p c).contents := by
  obtain ⟨hr, hw, hc⟩ := h.ready hs
  have hne : ¬ s.len = 0 := by
    rw [← State.isEmpty_iff hr hw, fit.pop_nonempty hpop]
    exact Bool.false_ne_true
  have hhead := contents_head? hr hc (Nat.pos_of_ne_zero hne)
  obtain ⟨rest, hrest⟩ := List.head?_eq_some_iff.mp (hhead.trans hv)
  have hcont := edge_contents hr hw hc d fit
  rw [hrest, hwrite, hpop, fit.one_removed hpop] at hcont
  rw [hrest, hcont]
  simp

theorem edge_len_add_one_of_popped (hwrite : p.wAcc = false) (hpop : c.popAcc = true) :
    (s.edge d p c).len + 1 = s.len := by
  obtain ⟨hr, hw, hc⟩ := h.ready hs
  obtain ⟨hlen, hle, -⟩ := edge_len hr hw hc d fit
  rw [hwrite, hpop, fit.one_removed hpop] at hlen hle
  simp only [Bool.toNat_true, Bool.toNat_false] at hlen hle
  omega

end

/-! ## POP and PEEK alone in their cycles -/

/-- The signals of the two commands that read (42_consumer.md R131, R132). -/
theorem consumerSignals_of_reading {k : ConsumerCmd} (hk : k = .pop ∨ k = .peek) {s : State} {x : ConsumerSignals}
    (hx : consumerSignals k s = .ok x) :
    (s.isEmpty = true → x.popAcc = false ∧ x.resp = .empty) ∧
    (s.isEmpty = false →
      (x.popAcc = true ↔ k = .pop) ∧ x.resp = .ok ∧ s.storage.read s.readIndex = some x.data) := by
  obtain ⟨hpop, hresp, hdata⟩ := consumerSignals_closed hx
  rw [if_pos hk] at hresp
  refine ⟨fun he => ?_, fun he => ?_⟩
  · exact ⟨by simpa [he] using hpop, hresp.trans (if_pos he)⟩
  · have hok : x.resp = .ok := by rw [hresp, he]; rfl
    exact ⟨by simpa [he] using hpop, hok, hdata hok⟩

/-- In a state of the invariant no read of a consumer command faults (60_exceptions.md R205). -/
theorem exec_consumer_next (k : ConsumerCmd) {s : State} (h : s.inv) (hs : s.resetSeen = true) :
    ∃ x, consumerSignals k s = .ok x ∧ exec k.instr s = .next (s.edge s.wrBus nopPSignals x) := by
  obtain ⟨x, hx, -⟩ := runPair_next .nopP k h hs
  exact ⟨x, hx, (exec_consumer_eq_next_iff k).mpr ⟨hs, x, hx, rfl⟩⟩

theorem signalsFit_consumer_alone {k : ConsumerCmd} {s : State} {x : ConsumerSignals}
    (hx : consumerSignals k s = .ok x) : SignalsFit s nopPSignals.wAcc x.popAcc nopPSignals.drop := by
  obtain ⟨hpop, -, -⟩ := consumerSignals_closed hx
  exact signalsFit .nopP fun hacc => (hpop.mp hacc).2

/-- POP of a nonempty buffer accepts, with the oldest element on `rd_data` (42_consumer.md R131). -/
theorem exec_pop_of_nonempty {s : State} (h : s.inv) (hs : s.resetSeen = true) (he : s.isEmpty = false) :
    ∃ x, exec .pop s = .next (s.edge s.wrBus nopPSignals x) ∧
      SignalsFit s nopPSignals.wAcc x.popAcc nopPSignals.drop ∧
      x.popAcc = true ∧ x.resp = .ok ∧ s.storage.read s.readIndex = some x.data := by
  obtain ⟨x, hx, hrun⟩ := exec_consumer_next .pop h hs
  obtain ⟨-, hread⟩ := consumerSignals_of_reading (.inl rfl) hx
  obtain ⟨hpop, hresp, hdata⟩ := hread he
  exact ⟨x, hrun, signalsFit_consumer_alone hx, hpop.mpr rfl, hresp, hdata⟩

/-- PEEK writes no state in either case (42_consumer.md R132). -/
theorem exec_peek_next {s : State} (h : s.inv) (hs : s.resetSeen = true) :
    ∃ t, exec .peek s = .next t ∧ t.arch = s.arch ∧ t.inv ∧
      (s.isEmpty = true → t.out.rdResp = .empty) ∧
      (s.isEmpty = false → s.storage.read s.readIndex = some t.out.rdData ∧ t.out.rdResp = .ok) := by
  obtain ⟨x, hx, hrun⟩ := exec_consumer_next .peek h hs
  obtain ⟨hempty, hread⟩ := consumerSignals_of_reading (.inr rfl) hx
  obtain ⟨hpop, -, -⟩ := consumerSignals_closed hx
  have hkept : x.popAcc = false := Bool.eq_false_iff.mpr fun hacc => nomatch (hpop.mp hacc).1
  have harch := edge_quiet h hs s.wrBus (p := nopPSignals) rfl rfl hkept
  refine ⟨_, hrun, harch, (State.inv_iff_of_arch_eq harch rfl).mpr h, fun he => (hempty he).2, fun he => ?_⟩
  obtain ⟨-, hresp, hdata⟩ := hread he
  exact ⟨hdata, hresp⟩

end Sys2Proof.Machine

open Sys2Proof Sys2Proof.Machine

/-- Settles O25: on an empty buffer POP sets no signal that writes state; on another one it removes one element and stores none. -/
theorem popRemovesOldest : Obligations.PopRemovesOldest := by
  unfold Obligations.PopRemovesOldest
  intro s hinv hs
  obtain ⟨hr, hw, -⟩ := hinv.ready hs
  cases he : s.isEmpty with
  | true =>
    obtain ⟨x, hx, hrun⟩ := exec_consumer_next .pop hinv hs
    obtain ⟨hempty, -⟩ := consumerSignals_of_reading (.inl rfl) hx
    obtain ⟨hkept, hresp⟩ := hempty he
    exact ⟨_, hrun, fun _ => ⟨edge_quiet hinv hs _ rfl rfl hkept, hresp⟩, nofun⟩
  | false =>
    obtain ⟨x, hrun, fit, hpop, hresp, hdata⟩ := exec_pop_of_nonempty hinv hs he
    have hread := State.edge_readIndex s s.wrBus nopPSignals x
    have hcount := State.edge_countReg_eq_countAfter s s.wrBus nopPSignals x
    rw [hpop] at hread hcount
    exact ⟨_, hrun, nofun, fun _ => ⟨hdata, hresp, hread.trans (s.cfg.advance_eq_mod _ 1),
      State.edge_writeIndex_of_kept hw _ _ rfl, hcount, edge_read_readIndex_of_popped hinv hs _ fit rfl hpop,
      fun a ha => edge_read_of_untouched hinv hs _ fit nofun (fun _ => ha)⟩⟩

/-- Settles O26: PEEK's edge changes nothing, and its answer is the read of the head slot or EMPTY. -/
theorem peekReadsOldest : Obligations.PeekReadsOldest := by
  unfold Obligations.PeekReadsOldest
  intro s hinv hs
  obtain ⟨t, hrun, harch, -, hempty, hread⟩ := exec_peek_next hinv hs
  exact ⟨t, hrun, harch, hempty, hread⟩

/-- Settles O27: after each PEEK the hardware's part is what it was, so all three commands read one head slot. -/
theorem peekThenPopGivesTheSameElement : Obligations.PeekThenPopGivesTheSameElement := by
  unfold Obligations.PeekThenPopGivesTheSameElement
  intro s hinv hs he
  obtain ⟨t, hrunt, hts, htinv, -, hreadt⟩ := exec_peek_next hinv hs
  have hst : t.resetSeen = true := (congrArg Arch.resetSeen hts).trans hs
  have het : t.isEmpty = false := (isEmpty_of_arch hts).trans he
  obtain ⟨u, hrunu, hut, huinv, -, hreadu⟩ := exec_peek_next htinv hst
  have hus : u.arch = s.arch := hut.trans hts
  have hsu : u.resetSeen = true := (congrArg Arch.resetSeen hus).trans hs
  obtain ⟨x, hrunv, fit, hpop, hrespv, hdatav⟩ :=
    exec_pop_of_nonempty huinv hsu ((isEmpty_of_arch hus).trans he)
  obtain ⟨hdatat, hrespt⟩ := hreadt he
  obtain ⟨hdatau, hrespu⟩ := hreadu het
  have hheadt : t.storage.read t.readIndex = s.storage.read s.readIndex :=
    congrArg (fun a => a.storage.read a.readIndex) hts
  have hheadu : u.storage.read u.readIndex = s.storage.read s.readIndex :=
    congrArg (fun a => a.storage.read a.readIndex) hus
  have htu : t.out.rdData = u.out.rdData := Option.some.inj (by rw [← hdatat, ← hheadt, hdatau])
  have hvt : x.data = t.out.rdData := Option.some.inj (by rw [← hdatav, hheadu, hdatat])
  have hlen := edge_len_add_one_of_popped huinv hsu u.wrBus fit rfl hpop
  have hcont := contents_eq_cons_edge_contents huinv hsu u.wrBus fit rfl hpop hdatav
  refine ⟨t, u, _, hrunt, hrunu, hrunv, hrespt, hrespu, hrespv, htu, hvt,
    hlen.trans (len_of_arch hus), ?_⟩
  rw [← State.contents_of_arch hus, hcont, hvt]

/-- Settles O35: POP stores no element, and answers EMPTY only where its cycle removes none. -/
theorem popFrame : Obligations.PopFrame := by
  unfold Obligations.PopFrame
  intro s t hinv hrun
  obtain ⟨hs, x, hx, rfl⟩ := (exec_consumer_eq_next_iff .pop).mp hrun
  obtain ⟨-, hw, -⟩ := hinv.ready hs
  have fit := signalsFit_consumer_alone hx
  obtain ⟨hempty, hread⟩ := consumerSignals_of_reading (.inl rfl) hx
  refine ⟨State.edge_writeIndex_of_kept hw _ _ rfl, fun hm => ?_,
    fun a ha => edge_read_of_untouched hinv hs _ fit nofun (fun _ => ha), fun hresp => ?_, rfl, rfl, rfl, rfl, rfl, rfl⟩
  · rw [State.edge_countReg_eq_countAfter, State.countAfter_of_twoCursor hm]
  · have he : s.isEmpty = true := by
      cases he : s.isEmpty with
      | true => rfl
      | false =>
        obtain ⟨-, hok, -⟩ := hread he
        cases hresp.symm.trans hok
    obtain ⟨hkept, -⟩ := hempty he
    have harch := edge_quiet hinv hs s.wrBus (p := nopPSignals) rfl rfl hkept
    exact ⟨congrArg Arch.readIndex harch, congrArg Arch.countReg harch, fun a => congrArg (·.storage.read a) harch⟩

end

section
/-! PROOFS. 43_status.md: the status outputs (R150-R152) in a cycle and on their own, the flag laws (R153), and the storage
interface (R154). Both kinds of cycle drive the status outputs and the addresses alike; only `ram_we` tells them apart. -/

namespace Sys2Proof

/-- PUSH is the code `P = 01` (30_encoding.md R71). -/
theorem isPush_decodeProducer_iff (f : BitVec 2) (d : Elem) : (decodeProducer f d).isPush = true ↔ f = 0b01#2 := by
  unfold decodeProducer
  split_ifs <;> simp_all [ProducerCmd.isPush]

namespace Machine

/-! ## The status outputs -/

theorem exec_isEmpty (s : State) : exec .isEmpty s = .next { s with out := { s.out with empty := s.emptyOut } } := rfl

theorem exec_isFull (s : State) : exec .isFull s = .next { s with out := { s.out with full := s.fullOut } } := rfl

theorem exec_len (s : State) : exec .len s = .next { s with out := { s.out with count := s.countOut } } := rfl

/-- Every cycle, one of RESET too, drives the status outputs of the pre-edge state (30_encoding.md R79). -/
theorem step_status_outputs {s t : State} (h : step s = .next t) :
    t.out.empty = s.emptyOut ∧ t.out.full = s.fullOut ∧ t.out.count = s.countOut := by
  obtain ⟨w, rest, -, ⟨-, rfl⟩ | ⟨p, c, x, -, -, -, -, rfl, -⟩⟩ := step_next_cases h
  · exact ⟨rfl, rfl, rfl⟩
  · exact ⟨rfl, rfl, rfl⟩

namespace State

/-- Under TWO_CURSOR `len` is below CAPACITY, so where no slot is usable it is 0, whatever the cursors hold. -/
theorem len_eq_zero_of_usable_eq_zero {s : State} (h : s.cfg.usable = 0) : s.len = 0 := by
  obtain ⟨hm, hcap⟩ := s.cfg.usable_eq_zero_iff.mp h
  have hlt := len_lt_of_twoCursor hm
  omega

theorem isEmpty_and_isFull_iff {s : State} (hr : s.readIndex < s.cfg.capacity) (hw : s.writeIndex < s.cfg.capacity) :
    s.isEmpty = true ∧ s.isFull = true ↔ s.cfg.usable = 0 := by
  rw [isEmpty_iff hr hw, isFull_iff hr hw]
  constructor
  · rintro ⟨hempty, hfull⟩
    exact hfull.symm.trans hempty
  · intro h0
    have hempty := len_eq_zero_of_usable_eq_zero h0
    exact ⟨hempty, hempty.trans h0.symm⟩

/-- A state has one next control word. -/
theorem drives.unique {s : State} {w w' : Input} {rest rest' : List Input} (h : s.drives w rest)
    (h' : s.drives w' rest') : w = w' ∧ rest = rest' := by
  obtain ⟨-, hin⟩ := h
  obtain ⟨-, hin'⟩ := h'
  exact List.cons.inj (hin.symm.trans hin')

end State

/-! ## The storage interface -/

/-- `w_acc` read from the producer field of the control word (41_producer.md R111, R112). -/
theorem producerSignals_wAcc_iff_field {c : Config} {w : Input} {p : ProducerCmd} {k : ConsumerCmd}
    (hdec : decode c w = .ok (.cycle p k)) (s : State) (popAcc : Bool) :
    (producerSignals p s popAcc).wAcc = true ↔
      (w.ctrl.producerField = 0b01#2 ∧ s.isFull = false) ∨ w.ctrl.producerField = 0b11#2 := by
  obtain ⟨hwrite, -, -⟩ := producerSignals_closed hdec s popAcc
  obtain ⟨hp, -, -⟩ := decode_fields hdec
  rw [hwrite, hp, isPush_decodeProducer_iff]
  exact or_congr_right (decodeProducer_eq_pushOvw _ (c.sample w.wrData))

end Machine

end Sys2Proof

open Sys2Proof Sys2Proof.Machine

/-- Settles O17: every cycle drives the outputs of the pre-edge state, which once reset are given by the rules. -/
theorem statusPortsShowPreEdgeState : Obligations.StatusPortsShowPreEdgeState := by
  unfold Obligations.StatusPortsShowPreEdgeState
  intro s t hs h
  obtain ⟨hempty, hfull, hcount⟩ := step_status_outputs h
  exact ⟨hempty.trans (emptyOut_eq hs), hfull.trans (fullOut_eq hs), hcount.trans (countOut_eq hs)⟩

/-- Settles O18: each row records its output, which once reset is given by its rule. -/
theorem statusReadsComplete : Obligations.StatusReadsComplete := by
  unfold Obligations.StatusReadsComplete
  intro s
  exact ⟨s.emptyOut, s.fullOut, s.countOut, exec_isEmpty s, exec_isFull s, exec_len s,
    fun hs => ⟨emptyOut_eq hs, fullOut_eq hs, countOut_eq hs⟩⟩

/-- Settles O19: both flags are facts about `len`, and together they say that USABLE is 0. -/
theorem flagLaws : Obligations.FlagLaws := by
  unfold Obligations.FlagLaws
  intro s _ hr hw
  exact ⟨State.isEmpty_iff hr hw, State.isFull_iff hr hw,
    (State.isEmpty_and_isFull_iff hr hw).trans s.cfg.usable_eq_zero_iff⟩

/-- Settles O20: a RESET cycle drives `ram_we = 0`, any other cycle the producer's `w_acc`. -/
theorem ramPortsFollowTheCursors : Obligations.RamPortsFollowTheCursors := by
  unfold Obligations.RamPortsFollowTheCursors
  intro s t w rest hd h
  obtain ⟨w', rest', hd', hcase⟩ := step_next_cases h
  obtain ⟨rfl, rfl⟩ := hd.unique hd'
  rcases hcase with ⟨h4, rfl⟩ | ⟨p, c, x, h4, -, hdec, -, rfl, -⟩
  · refine ⟨?_, rfl, rfl, rfl⟩
    simp [h4]
  · refine ⟨?_, rfl, rfl, rfl⟩
    rw [and_iff_right h4]
    exact producerSignals_wAcc_iff_field hdec (s.takeInput w rest) x.popAcc

end

section
/-! PROOFS. 44_cycle.md: what one step is (R170-R172), the signals and the state after the edge (R174-R177), what each port
writes (R179), the invariant (R181), and what a step depends on (R183). -/

namespace Sys2Proof.Machine

/-! ## The cycle a step runs -/

/-- The rows that share a cycle with a producer command are its own and, beside NOP_P, those of the consumer's port, which are
well formed for every configuration. -/
theorem wf_of_alone {i : Instr} {c : Config} {p : ProducerCmd} {k : ConsumerCmd} (h : i.alone = some (.cycle p k))
    (hwf : p.instr.wf c = true) : i.wf c = true := by
  cases i with
  | nopP | push _ | rsvP | pushOvw _ => cases h; exact hwf
  | nopC | pop | rsvC | peek => rfl
  | reset | isEmpty | isFull | len | new _ => cases h

theorem eq_reset_of_alone {i : Instr} (h : i.alone = some .reset) : i = .reset := by
  cases i with
  | reset => rfl
  | nopP | push _ | rsvP | pushOvw _ | nopC | pop | rsvC | peek | isEmpty | isFull | len | new _ => cases h

/-- Every next state of two commands is the edge of their signals, and these fit. -/
theorem runPair_eq_next {p : ProducerCmd} {k : ConsumerCmd} {s t : State} (h : runPair p k s = .next t) :
    ∃ x, consumerSignals k s = .ok x ∧ t = s.edge (p.data s.wrBus) (producerSignals p s x.popAcc) x ∧
      SignalsFit s (producerSignals p s x.popAcc).wAcc x.popAcc (producerSignals p s x.popAcc).drop := by
  rcases runPair_cases p k s with ⟨x, hx, hrun, fit⟩ | ⟨hrun, -⟩
  · rw [hrun] at h
    cases h
    exact ⟨x, hx, rfl, fit⟩
  · rw [hrun] at h
    cases h

/-! ## The invariant -/

theorem step_inv {s t : State} (h : s.inv) (hstep : step s = .next t) : t.inv := by
  obtain ⟨w, rest, -, ⟨-, rfl⟩ | ⟨p, c, x, -, hs, -, -, rfl, fit⟩⟩ := step_next_cases hstep
  · obtain ⟨hlegal, -⟩ := h
    exact resetEdge_inv hlegal (sample_lt s.cfg w.wrData)
  · exact edge_inv (takeInput_inv h w rest) hs (sample_lt s.cfg w.wrData) fit

theorem State.inv.wrBus_lt {s : State} (h : s.inv) : s.wrBus < 2 ^ s.cfg.dataW := by
  obtain ⟨-, -, -, -, -, -, -, hbus, -⟩ := h
  exact hbus

theorem exec_producer_inv {p : ProducerCmd} {s t : State} (h : s.inv) (hwf : p.instr.wf s.cfg = true)
    (hrun : exec p.instr s = .next t) : t.inv := by
  obtain ⟨hs, -, rfl⟩ := (exec_producer_eq_next_iff p).mp hrun
  obtain ⟨-, hdata⟩ := (p.wf_instr_iff h.wrBus_lt).mp hwf
  exact edge_inv h hs hdata (signalsFit_alone p s)

theorem exec_consumer_inv {k : ConsumerCmd} {s t : State} (h : s.inv) (hrun : exec k.instr s = .next t) : t.inv := by
  obtain ⟨hs, x, hx, rfl⟩ := (exec_consumer_eq_next_iff k).mp hrun
  exact edge_inv h hs h.wrBus_lt (signalsFit_consumer_alone hx)

/-- The record of the outputs is no part of the invariant. -/
theorem State.inv.with_out {s : State} (h : s.inv) (o : Outputs) : { s with out := o }.inv := h

theorem exec_inv {i : Instr} {s t : State} (h : s.inv) (hwf : i.wf s.cfg = true) (hrun : exec i s = .next t) : t.inv := by
  cases i with
  | nopP => exact exec_producer_inv (p := .nopP) h hwf hrun
  | push d => exact exec_producer_inv (p := .push d) h hwf hrun
  | rsvP => exact exec_producer_inv (p := .rsvP) h hwf hrun
  | pushOvw d => exact exec_producer_inv (p := .pushOvw d) h hwf hrun
  | nopC => exact exec_consumer_inv (k := .nopC) h hrun
  | pop => exact exec_consumer_inv (k := .pop) h hrun
  | rsvC => exact exec_consumer_inv (k := .rsvC) h hrun
  | peek => exact exec_consumer_inv (k := .peek) h hrun
  | reset =>
    cases hrun
    obtain ⟨hlegal, -⟩ := id h
    exact resetEdge_inv hlegal h.wrBus_lt
  | isEmpty | isFull | len => cases hrun; exact h.with_out _
  | new params =>
    cases helab : elaborate params with
    | error r => rw [exec_new_of_elaborate_error helab] at hrun; cases hrun
    | ok c =>
      rw [exec_new_of_elaborate_ok helab] at hrun
      cases hrun
      obtain ⟨hlegal, -, -⟩ := elaborate_ok helab
      exact powerOn_inv s hlegal

/-! ## The state after the edge -/

/-- 44_cycle.md R174 for every slot, in terms of the slots live after the edge. -/
theorem edge_read_eq_if_live (s : State) (d : Elem) (p : ProducerSignals) (c : ConsumerSignals) (i : Nat) :
    (s.edge d p c).storage.read i =
      if (s.edge d p c).live i = true then
        (if p.wAcc = true ∧ i = s.writeIndex then some d else s.storage.read i)
      else none := by
  rw [State.edge_storage, Memory.read_keep]
  cases hacc : p.wAcc with
  | true => simp [State.stored, Memory.read_write]
  | false => simp [State.stored]

/-- Under COUNT_TRACKED `count_reg` follows the two ports without a wrap and stays within 0 .. CAPACITY (44_cycle.md R176). -/
theorem edge_countReg_of_countTracked {s : State} (h : s.inv) (hs : s.resetSeen = true) (d : Elem) {p : ProducerSignals}
    {c : ConsumerSignals} (fit : SignalsFit s p.wAcc c.popAcc p.drop) (hm : s.cfg.mode = .countTracked) :
    (s.edge d p c).countReg ≤ s.cfg.capacity ∧
      ((s.edge d p c).countReg : Int) = s.countReg + p.wAcc.toNat - c.popAcc.toNat - p.drop.toNat := by
  obtain ⟨hr, hw, hc⟩ := h.ready hs
  obtain ⟨hlen, hle, -, hbound, -⟩ := edge_len hr hw hc d fit
  have hbefore : s.len = s.countReg := by simp [State.len, hm]
  have hafter : (s.edge d p c).len = (s.edge d p c).countReg := by simp [State.len, hm]
  rw [State.usable_of_countTracked hm, hafter] at hbound
  exact ⟨hbound, by omega⟩

/-! ## The shares of the two ports -/

/-- Neither `w_acc` nor `wr_resp` reads `pop_acc` (41_producer.md R111, R112; D10). -/
theorem producerSignals_acceptance (p : ProducerCmd) (s : State) (popAcc : Bool) :
    (producerSignals p s popAcc).wAcc = (producerSignals p s false).wAcc ∧
    (producerSignals p s popAcc).resp = (producerSignals p s false).resp := by
  cases p with
  | nopP | push _ | rsvP | pushOvw _ => exact ⟨rfl, rfl⟩

/-- Only PUSH_OVW on a full buffer drops an element. -/
theorem producerSignals_drop_eq_false {p : ProducerCmd} {s : State} (h : (∀ d, p ≠ .pushOvw d) ∨ s.isFull = false)
    (popAcc : Bool) : (producerSignals p s popAcc).drop = false := by
  cases p with
  | nopP | rsvP => rfl
  | push d => exact pushSignals_drop s
  | pushOvw d =>
    rcases h with hne | hf
    · exact absurd rfl (hne d)
    · simp [producerSignals, pushOvwSignals, hf]

section
variable {s : State} (h : s.inv) (hs : s.resetSeen = true) {d d' : Elem} {p p' : ProducerSignals}
  {c c' : ConsumerSignals} (fit : SignalsFit s p.wAcc c.popAcc p.drop) (fit' : SignalsFit s p'.wAcc c'.popAcc p'.drop)
include h hs fit fit'

/-- Two edges leave the same in a slot when they agree in what they write there and in whether they free it. -/
theorem edge_read_congr {a : Nat} (hwrite : a = s.writeIndex → d = d' ∧ p.wAcc = p'.wAcc)
    (hremove : a = s.readIndex → (c.popAcc = true ∨ p.drop = true ↔ c'.popAcc = true ∨ p'.drop = true)) :
    (s.edge d p c).storage.read a = (s.edge d' p' c').storage.read a := by
  by_cases hwi : a = s.writeIndex ∧ p.wAcc = true
  · obtain ⟨rfl, hacc⟩ := hwi
    obtain ⟨rfl, hsame⟩ := hwrite rfl
    rw [edge_read_writeIndex h hs d fit hacc, edge_read_writeIndex h hs d fit' (hsame ▸ hacc)]
  · have hno : ¬ (p.wAcc = true ∧ a = s.writeIndex) := fun hboth => hwi hboth.symm
    have hno' : ¬ (p'.wAcc = true ∧ a = s.writeIndex) := fun ⟨hacc, ha⟩ => hwi ⟨ha, (hwrite ha).2 ▸ hacc⟩
    rw [edge_read h hs d fit, edge_read h hs d' fit', if_neg hno, if_neg hno']
    by_cases ha : a = s.readIndex
    · simp only [hremove ha]
    · simp only [ha, and_false]

end

/-- The shares of `count_reg` add up, as far as the consumer takes away no more than there is. -/
theorem State.countAfter_add_countReg {s : State} {up down : Nat}
    (hdown : s.cfg.mode = .countTracked → down ≤ s.countReg) :
    s.countAfter up down + s.countReg = s.countAfter up 0 + s.countAfter 0 down := by
  cases hm : s.cfg.mode with
  | twoCursor => simp only [State.countAfter_of_twoCursor hm]
  | countTracked =>
    have := hdown hm
    simp only [State.countAfter, hm]
    omega

/-! ## What a cycle depends on -/

theorem statusOutputs_of_arch {a b : State} (h : a.arch = b.arch) (hs : a.resetSeen = true) :
    a.emptyOut = b.emptyOut ∧ a.fullOut = b.fullOut ∧ a.countOut = b.countOut := by
  have hs' : b.resetSeen = true := (congrArg Arch.resetSeen h).symm.trans hs
  simp [State.emptyOut, State.fullOut, State.countOut, hs, hs', isEmpty_of_arch h, isFull_of_arch h, len_of_arch h]

theorem outputs_agree_of_arch {a b : State} (h : a.arch = b.arch) (hs : a.resetSeen = true) (d : Elem)
    (p : ProducerSignals) {x y : ConsumerSignals} (hresp : y.resp = x.resp) (hdata : x.resp = .ok → y.data = x.data) :
    (a.outputs d p x).agree (b.outputs d p y) := by
  obtain ⟨hempty, hfull, hcount⟩ := statusOutputs_of_arch h hs
  exact ⟨hempty, hfull, hcount, rfl, hresp.symm, rfl, congrArg Arch.writeIndex h, rfl, congrArg Arch.readIndex h,
    fun hok => (hdata hok).symm⟩

theorem resetOutputs_agree_of_arch {a b : State} (h : a.arch = b.arch) (hs : a.resetSeen = true)
    (hbus : a.wrBus = b.wrBus) : (a.resetOutputs a.wrBus).agree (b.resetOutputs b.wrBus) := by
  obtain ⟨hempty, hfull, hcount⟩ := statusOutputs_of_arch h hs
  exact ⟨hempty, hfull, hcount, rfl, rfl, rfl, congrArg Arch.writeIndex h, hbus, congrArg Arch.readIndex h, nofun⟩

theorem takeInput_of_arch {a b : State} (h : a.arch = b.arch) (w : Input) (rest : List Input) :
    (a.takeInput w rest).arch = (b.takeInput w rest).arch := h

end Sys2Proof.Machine

open Sys2Proof Sys2Proof.Machine

/-- Settles O37: RESET's word runs RESET, and any other word the cycle of its two commands, which is what the one row beside an
idle port stands for. -/
theorem stepRunsDecodedInstruction : Obligations.StepRunsDecodedInstruction := by
  unfold Obligations.StepRunsDecodedInstruction
  intro s w rest i dec hd hdec hi
  rw [step_drives hd, runInput, State.takeInput_cfg, hdec]
  cases dec with
  | reset => rw [eq_reset_of_alone hi]
  | cycle p c => exact (exec_alone (s.takeInput w rest) hi (wf_of_alone hi (wf_of_decode hdec))).symm

/-- Settles O38: once reset, the word's two commands are neither of the refusals that go before them. -/
theorem stepRunsBothCommands : Obligations.StepRunsBothCommands := by
  unfold Obligations.StepRunsBothCommands
  intro s w rest p c hd hs hdec
  exact step_pair hs hd hdec

/-- Settles O39: the step is the edge of the two commands' signals, which have the closed forms of R177. -/
theorem cycleFollowsTheStepRule : Obligations.CycleFollowsTheStepRule := by
  unfold Obligations.CycleFollowsTheStepRule
  intro s w rest p c hinv hs hd hdec
  obtain ⟨x, hx, hstep, fit⟩ := step_cycle hinv hs hd hdec
  obtain ⟨hwrite, hdrop, hwr⟩ := producerSignals_closed hdec (s.takeInput w rest) x.popAcc
  obtain ⟨hpop, hrd, hdata⟩ := consumerSignals_closed hx
  have hread := s.cfg.advance_eq_mod s.readIndex
    (x.popAcc.toNat + (producerSignals p (s.takeInput w rest) x.popAcc).drop.toNat)
  rw [← Nat.add_assoc] at hread
  exact ⟨_, _, _, _, hstep, hwrite, hpop, hdrop, s.cfg.advance_eq_mod _ _, hread,
    State.edge_countReg_eq_countAfter .., edge_countReg_of_countTracked (takeInput_inv hinv w rest) hs _ fit,
    edge_read_eq_if_live _ _ _ _, hwr, hrd, hdata, rfl⟩

/-- Settles O44: a RESET cycle leaves an empty buffer, and the signals of any other fit the state it starts from. -/
theorem stepKeepsInvariant : Obligations.StepKeepsInvariant := by
  unfold Obligations.StepKeepsInvariant
  intro s t hinv hstep
  exact step_inv hinv hstep

/-- Settles O45: an instruction of a port is an edge whose signals fit, RESET empties the buffer, a status row writes the record
alone, and NEW builds one of a legal configuration. -/
theorem everyInstructionKeepsInvariant : Obligations.EveryInstructionKeepsInvariant := by
  unfold Obligations.EveryInstructionKeepsInvariant
  intro s t i hinv hwf hrun
  exact exec_inv hinv hwf hrun

/-- Settles O55: the three cycles are edges of one state, whose `w_acc` does not read the consumer's command and whose `pop_acc`
does not read the producer's; only a drop crosses over. -/
theorem portsWriteSeparately : Obligations.PortsWriteSeparately := by
  unfold Obligations.PortsWriteSeparately
  intro s t u v p c hinv hs ht hu hv
  obtain ⟨x, hx, rfl, fit⟩ := runPair_eq_next ht
  obtain ⟨_, hy, rfl, fitu⟩ := runPair_eq_next hu
  cases hy
  obtain ⟨_, hz, rfl, fitv⟩ := runPair_eq_next hv
  cases hx.symm.trans hz
  obtain ⟨hr, hw, hc⟩ := hinv.ready hs
  obtain ⟨hacc, hresp⟩ := producerSignals_acceptance p s x.popAcc
  refine ⟨congrArg (fun b : Bool => s.cfg.advance s.writeIndex b.toNat) hacc, hacc, hresp,
    fun a ha => edge_read_congr hinv hs fit fitu (fun _ => ⟨rfl, hacc⟩) (absurd · ha), rfl, fun _ => rfl,
    fun a haw har => edge_read_congr hinv hs fit fitv (absurd · haw) (absurd · har), fun hnodrop => ?_⟩
  have hdrop := producerSignals_drop_eq_false hnodrop
  obtain ⟨-, hpop, -⟩ := edge_len hr hw hc (ProducerCmd.nopP.data s.wrBus) fitv
  refine ⟨?_, fun a haw => edge_read_congr hinv hs fit fitv (absurd · haw) fun _ => ?_, ?_⟩
  · rw [State.edge_readIndex, State.edge_readIndex, hdrop]; rfl
  · rw [hdrop]; rfl
  · simp only [State.edge_countReg_eq_countAfter, hdrop, hacc]
    refine State.countAfter_add_countReg fun hm => ?_
    simpa [State.len, hm, producerSignals, nopPSignals] using hpop

/-- Settles O56: the two states drive the same word, and flags, signals and edge are functions of the hardware's part. -/
theorem stepIgnoresUnspecifiedValues : Obligations.StepIgnoresUnspecifiedValues := by
  unfold Obligations.StepIgnoresUnspecifiedValues
  intro s₁ s₂ t₁ harch hfaulted hrefused hinputs hstep
  obtain ⟨w, rest, ⟨⟨hf, hr⟩, hi⟩, hcase⟩ := step_next_cases hstep
  have hd : s₂.drives w rest := ⟨⟨hfaulted ▸ hf, hrefused ▸ hr⟩, hinputs ▸ hi⟩
  have hcfg : s₁.cfg = s₂.cfg := congrArg Arch.cfg harch
  have htake := takeInput_of_arch harch w rest
  rcases hcase with ⟨h4, rfl⟩ | ⟨p, c, x, -, hs, hdec, hx, rfl, -⟩
  · have hbus : (s₁.takeInput w rest).wrBus = (s₂.takeInput w rest).wrBus := congrArg (·.sample w.wrData) hcfg
    refine ⟨_, step_reset hd h4, ?_, rfl, fun hs => resetOutputs_agree_of_arch htake hs hbus⟩
    rw [State.resetEdge_arch, State.resetEdge_arch, State.takeInput_cfg, State.takeInput_cfg, hcfg]
  · have hs₂ : s₂.resetSeen = true := (congrArg Arch.resetSeen harch).symm.trans hs
    obtain ⟨y, hy, hpop, hresp, hdata⟩ := consumerSignals_of_arch htake hx
    have hstep₂ := (step_pair hs₂ hd (hcfg ▸ hdec)).trans (runPair_ok hy)
    obtain ⟨hbus, -⟩ := decode_data hdec
    rw [State.takeInput_wrBus, ← hcfg, hbus, hpop, ← producerSignals_of_arch p htake] at hstep₂
    exact ⟨_, hstep₂, edge_of_arch htake _ _ hpop, rfl,
      fun hs => outputs_agree_of_arch htake hs _ _ hresp hdata⟩

end

section
/-! PROOFS. 44_cycle.md R178: a cycle is its two commands one after the other, and so the same cycle of the source's ring buffer.
The consumer's command goes first, and leaves the producer the signals it has beside it; only a PUSH on a full buffer has to go
before the slot is freed, and changes nothing itself. -/

namespace Sys2Proof.Machine

/-! ## The elements held, by the flag `empty` -/

section
variable {s : State} (h : s.inv) (hs : s.resetSeen = true)
include h hs

theorem contents_eq_nil (he : s.isEmpty = true) : s.contents = [] := by
  obtain ⟨hr, hw, -⟩ := h.ready hs
  exact State.contents_of_len_zero ((State.isEmpty_iff hr hw).mp he)

theorem contents_eq_cons (he : s.isEmpty = false) {v : Elem} (hv : s.storage.read s.readIndex = some v) :
    ∃ q, s.contents = v :: q := by
  obtain ⟨hr, hw, hc⟩ := h.ready hs
  have hne : ¬ s.len = 0 := by
    rw [← State.isEmpty_iff hr hw, he]
    exact Bool.false_ne_true
  exact List.head?_eq_some_iff.mp ((contents_head? hr hc (Nat.pos_of_ne_zero hne)).trans hv)

end

/-! ## The commands of a cycle, each alone and both together -/

/-- What a consumer command with the signals `x` leaves when it runs alone. -/
abbrev State.consumed (s : State) (x : ConsumerSignals) : State := s.edge s.wrBus nopPSignals x

/-- What a producer command leaves when it runs alone. -/
abbrev State.produced (s : State) (p : ProducerCmd) : State :=
  s.edge (p.data s.wrBus) (producerSignals p s false) (nopCSignals s)

/-- What a producer command leaves together with a consumer command that has the signals `x`. -/
abbrev State.paired (s : State) (p : ProducerCmd) (x : ConsumerSignals) : State :=
  s.edge (p.data s.wrBus) (producerSignals p s x.popAcc) x

theorem data_lt_of_wf {p : ProducerCmd} {s : State} (h : s.inv) (hwf : p.instr.wf s.cfg = true) :
    p.data s.wrBus < 2 ^ s.cfg.dataW :=
  ((p.wf_instr_iff h.wrBus_lt).mp hwf).2

theorem exec_producer_next {p : ProducerCmd} {s : State} (h : s.inv) (hs : s.resetSeen = true)
    (hwf : p.instr.wf s.cfg = true) : exec p.instr s = .next (s.produced p) :=
  (exec_producer_eq_next_iff p).mpr ⟨hs, ((p.wf_instr_iff h.wrBus_lt).mp hwf).1, rfl⟩

theorem produced_inv {p : ProducerCmd} {s : State} (h : s.inv) (hs : s.resetSeen = true)
    (hwf : p.instr.wf s.cfg = true) : (s.produced p).inv :=
  exec_producer_inv h hwf (exec_producer_next h hs hwf)

theorem step_paired {s : State} {w : Input} {rest : List Input} {p : ProducerCmd} {k : ConsumerCmd} (h : s.inv)
    (hs : s.resetSeen = true) (hd : s.drives w rest) (hdec : decode s.cfg w = .ok (.cycle p k)) :
    ∃ x, consumerSignals k (s.takeInput w rest) = .ok x ∧ step s = .next ((s.takeInput w rest).paired p x) := by
  obtain ⟨x, hx, hrun, -⟩ := runPair_next p k (takeInput_inv h w rest) hs
  exact ⟨x, hx, (step_pair hs hd hdec).trans hrun⟩

/-- A PUSH on a full buffer is rejected, whatever the consumer's command does (R177). -/
theorem producerSignals_of_rejected {p : ProducerCmd} {s : State} (hrej : p.isPush = true ∧ s.isFull = true)
    (popAcc : Bool) : producerSignals p s popAcc = raiseFull := by
  obtain ⟨hpush, hf⟩ := hrej
  cases p with
  | push d => exact pushSignals_of_full hf
  | nopP | rsvP | pushOvw _ => cases hpush

theorem produced_arch_of_rejected {p : ProducerCmd} {s : State} (h : s.inv) (hs : s.resetSeen = true)
    (hrej : p.isPush = true ∧ s.isFull = true) : (s.produced p).arch = s.arch := by
  rw [State.produced, producerSignals_of_rejected hrej]
  exact edge_quiet h hs _ rfl rfl rfl

theorem paired_arch_of_rejected {p : ProducerCmd} {s : State} (hrej : p.isPush = true ∧ s.isFull = true)
    (x : ConsumerSignals) : (s.paired p x).arch = (s.consumed x).arch := by
  rw [State.paired, producerSignals_of_rejected hrej]
  rfl

theorem exec_consumer_consumed {k : ConsumerCmd} {s : State} {x : ConsumerSignals} (hs : s.resetSeen = true)
    (hx : consumerSignals k s = .ok x) : exec k.instr s = .next (s.consumed x) :=
  (exec_consumer_eq_next_iff k).mpr ⟨hs, x, hx, rfl⟩

section
variable {s : State} (h : s.inv) (hs : s.resetSeen = true) {k : ConsumerCmd} {x : ConsumerSignals}
  (hx : consumerSignals k s = .ok x)
include h hs hx

theorem consumed_inv : (s.consumed x).inv := exec_consumer_inv h (exec_consumer_consumed hs hx)

/-- An accepted POP leaves a buffer that is not full. -/
theorem consumed_isFull_of_popped (hpop : x.popAcc = true) : (s.consumed x).isFull = false := by
  obtain ⟨-, -, hc⟩ := h.ready hs
  obtain ⟨hr', hw', -⟩ := (consumed_inv h hs hx).ready hs
  have hlen : (s.consumed x).len + 1 = s.len :=
    edge_len_add_one_of_popped h hs s.wrBus (signalsFit_consumer_alone hx) rfl hpop
  have hle := hc.len_le_usable
  rw [← Bool.not_eq_true, State.isFull_iff hr' hw', State.edge_cfg]
  omega

theorem consumed_contents : (s.consumed x).contents = s.contents.drop x.popAcc.toNat := by
  obtain ⟨hr, hw, hc⟩ := h.ready hs
  rw [edge_contents hr hw hc s.wrBus (signalsFit_consumer_alone hx)]
  simp [nopPSignals]

/-- The producer's command sets after the consumer's what it sets beside it, but for the PUSH that meets a full buffer: its slot
is not free yet (R178). -/
theorem producerSignals_consumed {p : ProducerCmd} (hno : ¬ (p.isPush = true ∧ s.isFull = true)) :
    producerSignals p (s.consumed x) false = producerSignals p s x.popAcc := by
  cases hpop : x.popAcc with
  | false => exact producerSignals_of_arch p (edge_quiet h hs s.wrBus rfl rfl hpop) false
  | true =>
    have hfree := consumed_isFull_of_popped h hs hx hpop
    cases p with
    | nopP | rsvP => rfl
    | push d =>
      have hf : s.isFull = false := by simpa [ProducerCmd.isPush] using hno
      exact (pushSignals_of_not_full hfree).trans (pushSignals_of_not_full hf).symm
    | pushOvw d => simp [producerSignals, pushOvwSignals, hfree]

/-- The consumer's command and then the producer's leave what both together leave. -/
theorem consumed_produced_arch {p : ProducerCmd} (hwf : p.instr.wf s.cfg = true)
    (hno : ¬ (p.isPush = true ∧ s.isFull = true)) : ((s.consumed x).produced p).arch = (s.paired p x).arch := by
  obtain ⟨hr, hw, hc⟩ := h.ready hs
  have hu := consumed_inv h hs hx
  obtain ⟨hr', hw', hc'⟩ := hu.ready hs
  obtain ⟨hpop, -, -⟩ := consumerSignals_closed hx
  have fit := signalsFit p fun hacc => (hpop.mp hacc).2
  have fit' := signalsFit_alone p (s.consumed x)
  have hsig := producerSignals_consumed h hs hx hno
  refine arch_eq_of_contents (produced_inv hu hs hwf) (edge_inv h hs (data_lt_of_wf h hwf) fit) hs hs rfl ?_ ?_
  · rw [State.edge_readIndex, State.edge_readIndex, State.edge_readIndex, hsig, State.edge_cfg, Config.advance_advance]
    simp [nopPSignals, nopCSignals]
  · obtain ⟨-, hle, -⟩ := edge_len hr hw hc s.wrBus (signalsFit_consumer_alone hx)
    have hle : x.popAcc.toNat ≤ s.contents.length := by simpa [contents_length hr hc, nopPSignals] using hle
    rw [edge_contents hr' hw' hc' _ fit', edge_contents hr hw hc _ fit, hsig, consumed_contents h hs hx,
      ← List.drop_append_of_le_length hle, List.drop_drop]
    simp [nopCSignals]

/-- A consumer command answers, and leaves, what it does on the source's ring buffer. -/
theorem ringConsumer_contents :
    ringConsumer k s.contents = (x.resp, (if x.resp = .ok then some x.data else none), (s.consumed x).contents) := by
  obtain ⟨hpop, hresp, hdata⟩ := consumerSignals_closed hx
  rw [consumed_contents h hs hx]
  cases he : s.isEmpty with
  | true =>
    rw [contents_eq_nil h hs he]
    cases k <;> simp [ringConsumer, hresp, he]
  | false =>
    cases k with
    | nopC | rsvC =>
      have hkept : x.popAcc = false := by simpa using hpop
      simp [ringConsumer, hresp, hkept]
    | pop =>
      have hok : x.resp = .ok := by simp [hresp, he]
      obtain ⟨q, hq⟩ := contents_eq_cons h hs he (hdata hok)
      simp [ringConsumer, hq, hok, hpop.mpr ⟨rfl, he⟩]
    | peek =>
      have hok : x.resp = .ok := by simp [hresp, he]
      have hkept : x.popAcc = false := by simpa using hpop
      obtain ⟨q, hq⟩ := contents_eq_cons h hs he (hdata hok)
      simp [ringConsumer, hq, hok, hkept]

end

/-- A producer command answers, and leaves, what it does on the source's ring buffer. -/
theorem ringProducer_contents {s : State} (h : s.inv) (hs : s.resetSeen = true) (p : ProducerCmd) :
    ringProducer s.cfg.usable p s.contents = ((producerSignals p s false).resp, (s.produced p).contents) := by
  obtain ⟨hr, hw, hc⟩ := h.ready hs
  have hfull : s.contents.length = s.cfg.usable ↔ s.isFull = true := by
    rw [contents_length hr hc, State.isFull_iff hr hw]
  rw [edge_contents hr hw hc _ (signalsFit_alone p s)]
  cases p with
  | nopP | rsvP => simp [ringProducer, producerSignals, rsvPSignals, nopPSignals, nopCSignals]
  | push d =>
    cases hf : s.isFull with
    | true => simp [ringProducer, hfull, hf, producerSignals, pushSignals, raiseFull, nopCSignals]
    | false => simp [ringProducer, hfull, hf, producerSignals, pushSignals, nopCSignals, ProducerCmd.data]
  | pushOvw d =>
    cases hf : s.isFull <;>
      simp [ringProducer, hfull, hf, producerSignals, pushOvwSignals, nopCSignals, ProducerCmd.data]

/-- A cycle on the source's ring buffer over the elements held answers, and leaves, what the cycle of the machine does. -/
theorem ringCycle_contents {s : State} (h : s.inv) (hs : s.resetSeen = true) {p : ProducerCmd} {k : ConsumerCmd}
    (hwf : p.instr.wf s.cfg = true) {x : ConsumerSignals} (hx : consumerSignals k s = .ok x) :
    ringCycle s.cfg.usable p k s.contents =
      ((producerSignals p s x.popAcc).resp, x.resp, (if x.resp = .ok then some x.data else none),
        (s.paired p x).contents) := by
  obtain ⟨hr, hw, hc⟩ := h.ready hs
  have hrej : (p.isPush && s.contents.length == s.cfg.usable) = true ↔ p.isPush = true ∧ s.isFull = true := by
    rw [Bool.and_eq_true, beq_iff_eq, contents_length hr hc, State.isFull_iff hr hw]
  have hconsumer := ringConsumer_contents h hs hx
  unfold ringCycle
  split
  · rename_i hpush
    have hrejected := hrej.mp hpush
    simp only [ringProducer_contents h hs p, State.contents_of_arch (produced_arch_of_rejected h hs hrejected), hconsumer,
      producerSignals_of_rejected hrejected, State.contents_of_arch (paired_arch_of_rejected hrejected x)]
  · rename_i hpush
    have hno := fun hboth => hpush (hrej.mpr hboth)
    have hproducer := ringProducer_contents (consumed_inv h hs hx) hs p
    rw [State.edge_cfg] at hproducer
    simp only [hconsumer, hproducer, producerSignals_consumed h hs hx hno,
      State.contents_of_arch (consumed_produced_arch h hs hx hwf hno)]

end Sys2Proof.Machine

open Sys2Proof Sys2Proof.Machine

/-- Settles O42: the consumer's command leaves the producer's its signals; a rejected PUSH leaves the consumer's its own. -/
theorem cycleEqualsCommandsInSequence : Obligations.CycleEqualsCommandsInSequence := by
  unfold Obligations.CycleEqualsCommandsInSequence
  intro s w rest p k hinv hs hd hdec
  have hwf := wf_of_decode hdec
  have h := takeInput_inv hinv w rest
  obtain ⟨x, hx, hstep⟩ := step_paired hinv hs hd hdec
  by_cases hrej : p.isPush = true ∧ s.isFull = true
  · have harch := produced_arch_of_rejected (s := s.takeInput w rest) h hs hrej
    obtain ⟨y, hy, hpop, hresp, hdata⟩ := consumerSignals_of_arch harch.symm hx
    have hv := (edge_of_arch harch (s.takeInput w rest).wrBus nopPSignals hpop.symm).trans
      (paired_arch_of_rejected (s := s.takeInput w rest) hrej x).symm
    refine ⟨_, (s.takeInput w rest).produced p, ((s.takeInput w rest).produced p).consumed y, hstep, hv, ?_⟩
    rw [if_pos hrej]
    exact ⟨exec_producer_next h hs hwf, exec_consumer_consumed hs hy,
      (producerSignals_acceptance p (s.takeInput w rest) x.popAcc).2.symm, hresp, hdata⟩
  · have hu := consumed_inv h hs hx
    refine ⟨_, (s.takeInput w rest).consumed x, ((s.takeInput w rest).consumed x).produced p, hstep,
      consumed_produced_arch h hs hx hwf hrej, ?_⟩
    rw [if_neg hrej]
    exact ⟨exec_consumer_consumed hs hx, exec_producer_next hu hs hwf,
      congrArg ProducerSignals.resp (producerSignals_consumed h hs hx hrej), rfl, fun _ => rfl⟩

/-- Settles O43: each command alone does what it does on the ring buffer, and the cycle is the two in R178's order. -/
theorem cycleRefinesRingBuffer : Obligations.CycleRefinesRingBuffer := by
  unfold Obligations.CycleRefinesRingBuffer
  intro s w rest p k hinv hs hd hdec
  obtain ⟨x, hx, hstep⟩ := step_paired hinv hs hd hdec
  exact ⟨_, hstep, ringCycle_contents (takeInput_inv hinv w rest) hs (wf_of_decode hdec) hx⟩

end

section
/-! PROOFS. 44_cycle.md R182: first in, first out. Each cycle accounts for the elements held before and after it, the accounts of
a run add up, and a read that answers OK shows the head of the elements held. -/

namespace Sys2Proof.Machine

/-! ## Accounts -/

/-- The elements held `before` and then those written are those that left, popped (`true`) or dropped (`false`), and then those
held `after`. -/
def FifoLog.accounts (log : FifoLog) (before after : List Elem) : Prop :=
  ∃ left : List (Bool × Elem),
    left.map (·.2) ++ after = before ++ log.written ∧
    (left.filter (·.1)).map (·.2) = log.popped ∧
    (left.filter (fun x => !x.1)).length = log.dropped

namespace FifoLog

theorem accounts_nothing (q : List Elem) : FifoLog.accounts { written := [], popped := [], dropped := 0 } q q :=
  ⟨[], by simp, rfl, rfl⟩

theorem accounts.append {a b : FifoLog} {q r u : List Elem} (ha : a.accounts q r) (hb : b.accounts r u) :
    (a.append b).accounts q u := by
  obtain ⟨la, hla, hpa, hda⟩ := ha
  obtain ⟨lb, hlb, hpb, hdb⟩ := hb
  refine ⟨la ++ lb, ?_, ?_, ?_⟩
  · calc (la ++ lb).map (·.2) ++ u = la.map (·.2) ++ (lb.map (·.2) ++ u) := by simp
      _ = (la.map (·.2) ++ r) ++ b.written := by rw [hlb, List.append_assoc]
      _ = q ++ (a.append b).written := by rw [hla, List.append_assoc]; rfl
  · simp [FifoLog.append, hpa, hpb]
  · simp [FifoLog.append, hda, hdb]

/-- Where no element left, those held stay in front. -/
theorem accounts.eq_append {log : FifoLog} {before after : List Elem} (h : log.accounts before after)
    (hpopped : log.popped = []) (hdropped : log.dropped = 0) : after = before ++ log.written := by
  obtain ⟨left, hleft, hpop, hdrop⟩ := h
  have hnone : left = [] := by
    rw [hpopped, List.map_eq_nil_iff, List.filter_eq_nil_iff] at hpop
    rw [hdropped, List.length_eq_zero_iff, List.filter_eq_nil_iff] at hdrop
    refine List.eq_nil_iff_forall_not_mem.mpr fun y hy => hdrop y hy ?_
    simpa using hpop y hy
  rw [hnone] at hleft
  exact hleft

end FifoLog

/-! ## One cycle -/

/-- A step on a word that is no RESET runs two commands of a machine that has been reset. -/
theorem step_commands {s t : State} {w : Input} {rest : List Input} (hd : s.drives w rest) (h4 : w.ctrl.rst = false)
    (hstep : step s = .next t) : s.resetSeen = true ∧ ∃ p k, decode s.cfg w = .ok (.cycle p k) := by
  obtain ⟨w', rest', hd', hcase⟩ := step_next_cases hstep
  obtain ⟨rfl, rfl⟩ := hd.unique hd'
  rcases hcase with ⟨h4', -⟩ | ⟨p, k, -, -, hs, hdec, -⟩
  · rw [h4] at h4'
    cases h4'
  · exact ⟨hs, p, k, hdec⟩

theorem step_inputs {s t : State} {w : Input} {rest : List Input} (hd : s.drives w rest) (hstep : step s = .next t) :
    t.inputs = rest := by
  obtain ⟨w', rest', hd', ⟨-, rfl⟩ | ⟨p, k, x, -, -, -, -, rfl, -⟩⟩ := step_next_cases hstep
  · exact (hd.unique hd').2.symm
  · exact (hd.unique hd').2.symm

section
variable {s t : State} {w : Input} {rest : List Input} (h : s.inv) (hd : s.drives w rest) (h4 : w.ctrl.rst = false)
  (hstep : step s = .next t)
include h hd h4 hstep

/-- An element that leaves is the oldest: an accepted POP's, or the one PUSH_OVW drops, which may be the element it just
wrote where USABLE is 0. -/
theorem step_accounts : (cycleLog w s t).accounts s.contents t.contents := by
  obtain ⟨hs, p, k, hdec⟩ := step_commands hd h4 hstep
  obtain ⟨x, t', hx, hstep', -, -, -, -, hout, -, -, hcont⟩ := step_contents h hs hd hdec
  cases hstep.symm.trans hstep'
  obtain ⟨hpop, hresp, hdata⟩ := consumerSignals_closed hx
  have fit := signalsFit p fun hacc => (hpop.mp hacc).2
  rw [cycleLog_step hdec hx hout, hcont]
  cases hacc : x.popAcc with
  | true =>
    rw [hacc] at fit
    obtain ⟨rfl, he⟩ := hpop.mp hacc
    obtain ⟨q, hq⟩ := contents_eq_cons h hs he (hdata (by simp [hresp, he]))
    exact ⟨[(true, x.data)], by simp [hq, fit.one_removed], by simp, by simp [fit.one_removed]⟩
  | false =>
    rw [hacc] at fit
    cases hdrop : (producerSignals p s false).drop with
    | true =>
      obtain ⟨hwrite, -⟩ := fit.drop_full hdrop
      obtain ⟨oldest, q, hq⟩ : ∃ oldest q, s.contents ++ [s.cfg.sample w.wrData] = oldest :: q :=
        List.exists_cons_of_ne_nil (by simp)
      exact ⟨[(false, oldest)], by simp [hwrite, hq], by simp, by simp⟩
    | false => exact ⟨[], by simp, by simp, by simp⟩

/-- A read that answers OK, POP's or PEEK's, shows the oldest element held. -/
theorem step_reads_oldest (hok : t.out.rdResp = .ok) : ∃ q, s.contents = t.out.rdData :: q := by
  obtain ⟨hs, p, k, hdec⟩ := step_commands hd h4 hstep
  obtain ⟨x, t', hx, hstep', -, -, -, -, hout, -⟩ := step_contents h hs hd hdec
  cases hstep.symm.trans hstep'
  rw [hout] at hok ⊢
  rcases consumerSignals_cases k s with ⟨y, hy, -, hread⟩ | ⟨herr, -⟩
  · cases hx.symm.trans hy
    obtain ⟨he, hdata⟩ := hread hok
    exact contents_eq_cons h hs he hdata
  · cases hx.symm.trans herr

end

/-! ## A run -/

theorem fifoLog_succ {n : Nat} {s u : State} {log : FifoLog} (h : fifoLog (n + 1) s = some (log, u)) :
    ∃ w rest t log', s.drives w rest ∧ step s = .next t ∧ fifoLog n t = some (log', u) ∧
      log = (cycleLog w s t).append log' := by
  unfold fifoLog at h
  split at h
  · rename_i w' rest' t hin hstep
    obtain ⟨w, rest, hd, -⟩ := step_next_cases hstep
    obtain ⟨-, hin'⟩ := id hd
    cases hin.symm.trans hin'
    obtain ⟨⟨log', u'⟩, hrun, hpair⟩ := Option.map_eq_some_iff.mp h
    cases hpair
    exact ⟨_, _, t, log', hd, hstep, hrun, rfl⟩
  · cases h

/-- The accounts of a run without RESET. -/
theorem fifoLog_accounts (n : Nat) {s u : State} {log : FifoLog} (h : s.inv)
    (hrst : ∀ w ∈ s.inputs.take n, w.ctrl.rst = false) (hrun : fifoLog n s = some (log, u)) :
    u.inv ∧ log.accounts s.contents u.contents := by
  induction n generalizing s log with
  | zero =>
    cases hrun
    exact ⟨h, FifoLog.accounts_nothing _⟩
  | succ n ih =>
    obtain ⟨w, rest, t, log', hd, hstep, hrun', rfl⟩ := fifoLog_succ hrun
    obtain ⟨-, hin⟩ := id hd
    rw [hin, List.take_succ_cons, List.forall_mem_cons] at hrst
    obtain ⟨h4, hrst'⟩ := hrst
    have hin' := step_inputs hd hstep
    obtain ⟨hu, hacc⟩ := ih (step_inv h hstep) (hin' ▸ hrst') hrun'
    exact ⟨hu, (step_accounts h hd h4 hstep).append hacc⟩

end Sys2Proof.Machine

open Sys2Proof Sys2Proof.Machine

/-- Settles O47: the accounts of the run from an empty buffer; and where nothing leaves between the PEEK and the POP, both read
the head of the same elements. -/
theorem fifoOrder : Obligations.FifoOrder := by
  unfold Obligations.FifoOrder
  refine ⟨?_, ?_⟩
  · intro n s t log hinv _ hempty hrst hrun
    obtain ⟨-, hacc⟩ := fifoLog_accounts n hinv hrst hrun
    rw [hempty] at hacc
    exact hacc
  · intro n s t u v w z rest rest' log hinv hd h4 hpeek hstep hok hdropped hrst hrun hpopped' hdropped' hdz h4z _ hstepv hokv
    have hpopped : (cycleLog w s t).popped = [] := by simp [cycleLog, hpeek]
    have hin := step_inputs hd hstep
    obtain ⟨huinv, hacc⟩ := fifoLog_accounts n (step_inv hinv hstep) (hin ▸ hrst) hrun
    have ht := (step_accounts hinv hd h4 hstep).eq_append hpopped hdropped
    have hu := hacc.eq_append hpopped' hdropped'
    obtain ⟨q, hq⟩ := step_reads_oldest hinv hd h4 hstep hok
    obtain ⟨q', hq'⟩ := step_reads_oldest huinv hdz h4z hstepv hokv
    rw [hq', ht, hq] at hu
    exact (List.cons.inj hu).1

end

section
/-! PROOFS. 60_exceptions.md: the order of a cycle's refusals (R209), and the marks that stop a run (R204, R205). A marked run
stands still, and from a state of the invariant no run meets the fault. -/

namespace Sys2Proof.Machine

/-! ## The refusals and the responses of a cycle -/

theorem step_of_unreset {s : State} {w : Input} {rest : List Input} (hs : s.resetSeen = false) (hd : s.drives w rest)
    (h4 : w.ctrl.rst = false) : step s = .refused .notReset := by
  rw [step_drives hd]
  rcases runInput_cases w (s.takeInput w rest) with ⟨hrst, -⟩ | ⟨-, -, hrun⟩ | ⟨-, hs', -⟩ | ⟨-, -, -, hs', -⟩
  · cases h4.symm.trans hrst
  · exact hrun
  · cases hs.symm.trans hs'
  · cases hs.symm.trans hs'

/-- Only a full buffer answers FULL (60_exceptions.md R201). -/
theorem isFull_of_producerSignals_resp {p : ProducerCmd} {s : State} {popAcc : Bool}
    (hresp : (producerSignals p s popAcc).resp = .full) : s.isFull = true := by
  cases p with
  | push d => exact isFull_of_pushSignals_resp hresp
  | nopP | rsvP | pushOvw d => cases hresp

/-- Only an empty buffer answers EMPTY (60_exceptions.md R202). -/
theorem isEmpty_of_consumerSignals_resp {k : ConsumerCmd} {s : State} {x : ConsumerSignals}
    (hx : consumerSignals k s = .ok x) (hresp : x.resp = .empty) : s.isEmpty = true := by
  obtain ⟨-, hclosed, -⟩ := consumerSignals_closed hx
  rw [hresp] at hclosed
  split_ifs at hclosed with _ he
  exact he

/-! ## The marks -/

theorem step_of_faulted {s : State} {f : Fault} (hf : s.faulted = some f) : step s = .fault f := by
  simp [step, takeStep, hf]

theorem step_of_refused {s : State} {r : Refusal} (hf : s.faulted = none) (hr : s.refused = some r) :
    step s = .refused r := by
  simp [step, takeStep, hf, hr]

/-- A run that answers the mark it already has stands still. -/
theorem runMarked_of_record_eq {s : State} (h : s.record (step s) = s) (n : Nat) : runMarked n s = s := by
  induction n with
  | zero => rfl
  | succ n ih =>
    calc runMarked (n + 1) s = runMarked n (s.record (step s)) := rfl
      _ = s := by rw [h, ih]

theorem runMarked_of_faulted {s : State} {f : Fault} (hf : s.faulted = some f) (n : Nat) : runMarked n s = s := by
  refine runMarked_of_record_eq ?_ n
  rw [step_of_faulted hf, State.record, ← hf]

theorem runMarked_of_refused {s : State} {r : Refusal} (hf : s.faulted = none) (hr : s.refused = some r) (n : Nat) :
    runMarked n s = s := by
  refine runMarked_of_record_eq ?_ n
  rw [step_of_refused hf hr, State.record, ← hr]

/-! ## The fault -/

theorem memRead_of_unwritten {s : State} {i : Nat} (h : s.storage.read i = none) :
    memRead s i = .error .slotUnwritten := by
  simp [memRead, h]

/-- A command that reads, on a buffer that is not empty, has no signals where the head slot holds no value. -/
theorem exec_reading_of_unwritten {k : ConsumerCmd} (hk : k = .pop ∨ k = .peek) {s : State} (hs : s.resetSeen = true)
    (he : s.isEmpty = false) (hread : s.storage.read s.readIndex = none) : exec k.instr s = .fault .slotUnwritten := by
  rw [exec_consumer k hs]
  rcases runPair_cases .nopP k s with ⟨x, hx, -⟩ | ⟨hrun, -⟩
  · obtain ⟨-, hnonempty⟩ := consumerSignals_of_reading hk hx
    obtain ⟨-, -, hdata⟩ := hnonempty he
    cases hread.symm.trans hdata
  · exact hrun

/-- Only a cycle of two commands could fault, and in a state of the invariant it answers a next state (60_exceptions.md R205). -/
theorem step_ne_fault {s : State} (h : s.inv) (hf : s.faulted = none) (f : Fault) : step s ≠ .fault f := by
  intro hstep
  rcases step_cases s with ⟨f', hf', -⟩ | ⟨r, -, -, hr⟩ | ⟨-, -, hr⟩ | ⟨w, rest, -, hrun⟩
  · cases hf.symm.trans hf'
  · cases hstep.symm.trans hr
  · cases hstep.symm.trans hr
  · rw [hrun] at hstep
    rcases runInput_cases w (s.takeInput w rest) with ⟨-, ho⟩ | ⟨-, -, ho⟩ | ⟨-, -, -, -, ho⟩ | ⟨p, k, -, hs, -, ho⟩
    · cases hstep.symm.trans ho
    · cases hstep.symm.trans ho
    · cases hstep.symm.trans ho
    · obtain ⟨x, -, hnext, -⟩ := runPair_next p k (takeInput_inv h w rest) hs
      cases hstep.symm.trans (ho.trans hnext)

/-- Every step keeps the invariant and sets no mark, so none of a run faults (60_exceptions.md R205). -/
theorem run_ne_fault (n : Nat) {s : State} (h : s.inv) (hf : s.faulted = none) (f : Fault) :
    Sys2Proof.core.run n s ≠ .fault f := by
  induction n generalizing s with
  | zero => nofun
  | succ n ih =>
    cases hstep : step s with
    | next t =>
      obtain ⟨hfaulted, -⟩ := step_marks hstep
      rw [run_succ_next hstep]
      exact ih (step_inv h hstep) (hfaulted.trans hf)
    | fault f' => exact absurd hstep (step_ne_fault h hf f')
    | refused r =>
      rw [run_succ_refused hstep]
      nofun

end Sys2Proof.Machine

open Sys2Proof Sys2Proof.Machine

/-- Settles O48: by induction on the steps, each of which keeps the invariant and cannot fault from it. -/
theorem runsNeverFault : Obligations.RunsNeverFault := by
  unfold Obligations.RunsNeverFault
  intro s hinv hf n f
  exact run_ne_fault n hinv hf f

/-- Settles O40: one case per line of R209; in the last, neither port's response reads the other's command, and a buffer that is
both full and empty has no usable slot. -/
theorem cyclePriority : Obligations.CyclePriority := by
  unfold Obligations.CyclePriority
  intro s w rest hinv hd
  refine ⟨fun h4 => ⟨_, step_reset hd h4, rfl, rfl⟩, fun h4 hs => step_of_unreset hs hd h4,
    fun h4 hs ho h3 => step_of_overwrite_absent hs ho hd h4 h3, fun h4 hs ho => ?_⟩
  have hdec := decode_of_overwrite_configured (c := s.cfg) h4 ho
  have h := takeInput_inv hinv w rest
  obtain ⟨hr, hw, -⟩ := h.ready hs
  obtain ⟨x, hx, hstep⟩ := step_paired hinv hs hd hdec
  obtain ⟨-, hresp⟩ := producerSignals_acceptance (decodeProducer w.ctrl.producerField (s.cfg.sample w.wrData))
    (s.takeInput w rest) x.popAcc
  refine ⟨_, _, _, _, _, hdec, hstep, exec_producer_next h hs (wf_of_decode hdec), hresp,
    exec_consumer_consumed hs hx, rfl, fun ⟨hfull, hempty⟩ => ?_⟩
  have hboth := And.intro (isEmpty_of_consumerSignals_resp hx hempty) (isFull_of_producerSignals_resp hfull)
  exact s.cfg.usable_eq_zero_iff.mp ((State.isEmpty_and_isFull_iff hr hw).mp hboth)

/-- Settles O49: a faulted run stands still, and every state the host can drive `State.reset` with is one of the invariant. -/
theorem emptySlotReadFaults : Obligations.EmptySlotReadFaults := by
  unfold Obligations.EmptySlotReadFaults
  refine ⟨fun s i h => memRead_of_unwritten h, fun s hs he hread => ?_, fun s f hstep => ?_, fun s f hf => ?_,
    fun ws n f => ?_⟩
  · exact ⟨exec_reading_of_unwritten (.inl rfl) hs he hread, exec_reading_of_unwritten (.inr rfl) hs he hread⟩
  · rw [hstep]
    rfl
  · exact ⟨step_of_faulted hf, fun n => by rw [runMarked_of_faulted hf, hf]⟩
  · have hinv : State.inv { State.reset with inputs := ws } :=
      (State.inv_iff_of_arch_eq (s := State.reset) rfl rfl).mp resetStateSatisfiesInvariant
    exact run_ne_fault n hinv rfl f

/-- Settles O50: both refusals are lines of R209, and a step of a refused run records the mark that is there. -/
theorem refusedRunTakesNoFurtherStep : Obligations.RefusedRunTakesNoFurtherStep := by
  unfold Obligations.RefusedRunTakesNoFurtherStep
  refine ⟨fun s w rest hd h4 => ⟨fun hs => ?_, fun hs ho h3 => ?_⟩, fun s r hstep => ?_, fun s r hf hr => ?_⟩
  · exact step_of_unreset hs hd h4
  · exact step_of_overwrite_absent hs ho hd h4 h3
  · rw [hstep]
    rfl
  · exact ⟨step_of_refused hf hr, runMarked_of_refused hf hr⟩

end

section
/-! PROOFS. 70_reset_and_hazards.md: RESET (R230, R231) and the machine before it (R232), what the ports of one cycle see of
each other (R235-R237), the instance that can hold nothing (R240), and how an element can leave (R234). -/

namespace Sys2Proof.Machine

/-! ## RESET, NEW, and the machine before the first RESET -/

theorem whenReady_of_unreset {s : State} (hs : s.resetSeen = false) (k : Host.Outcome State Fault Refusal) :
    whenReady s k = .refused .notReset := by
  simp [whenReady, hs]

theorem step_resetSeen {s t : State} (hs : s.resetSeen = true) (hstep : step s = .next t) : t.resetSeen = true := by
  obtain ⟨w, rest, -, ⟨-, rfl⟩ | ⟨p, k, x, -, -, -, -, rfl, -⟩⟩ := step_next_cases hstep
  · rfl
  · exact hs

theorem exec_new_eq_next {params : NewParams} {s t : State} (hrun : exec (.new params) s = .next t) :
    ∃ c, t = s.powerOn c := by
  cases helab : elaborate params with
  | error r => rw [exec_new_of_elaborate_error helab] at hrun; cases hrun
  | ok c => rw [exec_new_of_elaborate_ok helab] at hrun; cases hrun; exact ⟨c, rfl⟩

/-! ## The flags and the responses of one cycle -/

theorem State.emptyOut_of_resetSeen {s : State} (hs : s.resetSeen = true) : s.emptyOut = s.isEmpty := if_pos hs

theorem State.fullOut_of_resetSeen {s : State} (hs : s.resetSeen = true) : s.fullOut = s.isFull := if_pos hs

theorem producerSignals_resp_eq_full_iff (p : ProducerCmd) (s : State) (popAcc : Bool) :
    (producerSignals p s popAcc).resp = .full ↔ p.isPush = true ∧ s.isFull = true := by
  refine ⟨fun hresp => ⟨?_, isFull_of_producerSignals_resp hresp⟩, fun hrej => ?_⟩
  · cases p with
    | push d => rfl
    | nopP | rsvP | pushOvw d => cases hresp
  · rw [producerSignals_of_rejected hrej]
    rfl

theorem producerSignals_resp_of_accepted {p : ProducerCmd} {s : State} (hpush : p.isPush = true)
    (hf : s.isFull = false) (popAcc : Bool) : (producerSignals p s popAcc).resp = .ok := by
  cases p with
  | push d => exact congrArg ProducerSignals.resp (pushSignals_of_not_full hf)
  | nopP | rsvP | pushOvw d => cases hpush

/-- PUSH is accepted iff the buffer is not full (70_reset_and_hazards.md R237). -/
theorem producerSignals_resp_eq_ok_iff {p : ProducerCmd} (hpush : p.isPush = true) (s : State) (popAcc : Bool) :
    (producerSignals p s popAcc).resp = .ok ↔ s.isFull = false := by
  cases hf : s.isFull with
  | true => simp [(producerSignals_resp_eq_full_iff p s popAcc).mpr ⟨hpush, hf⟩]
  | false => simp [producerSignals_resp_of_accepted hpush hf]

/-- POP and PEEK are accepted iff the buffer is not empty (70_reset_and_hazards.md R237). -/
theorem consumerSignals_resp_eq_ok_iff {k : ConsumerCmd} (hk : k = .pop ∨ k = .peek) {s : State} {x : ConsumerSignals}
    (hx : consumerSignals k s = .ok x) : x.resp = .ok ↔ s.isEmpty = false := by
  obtain ⟨-, hresp, -⟩ := consumerSignals_closed hx
  cases he : s.isEmpty <;> simp [hresp, hk, he]

theorem consumerSignals_resp_eq_empty_iff {k : ConsumerCmd} {s : State} {x : ConsumerSignals}
    (hx : consumerSignals k s = .ok x) : x.resp = .empty ↔ (k = .pop ∨ k = .peek) ∧ s.isEmpty = true := by
  obtain ⟨-, hresp, -⟩ := consumerSignals_closed hx
  rw [hresp]
  split_ifs with hk he
  · simp [hk, he]
  · simp [he]
  · simp [hk]

/-! ## The elements held, before and after -/

theorem State.len_ne_zero_of_not_empty {s : State} (hr : s.readIndex < s.cfg.capacity)
    (hw : s.writeIndex < s.cfg.capacity) (he : s.isEmpty = false) : s.len ≠ 0 := by
  rw [ne_eq, ← State.isEmpty_iff hr hw, he]
  exact Bool.false_ne_true

/-- A cycle removes no more than was held before it, unless USABLE is 0: the element it accepts stays. -/
theorem SignalsFit.removed_le_len {s : State} {wAcc popAcc drop : Bool} (fit : SignalsFit s wAcc popAcc drop)
    (hr : s.readIndex < s.cfg.capacity) (hw : s.writeIndex < s.cfg.capacity) (hu : s.cfg.usable ≠ 0) :
    popAcc.toNat + drop.toNat ≤ s.len := by
  cases hpop : popAcc with
  | true =>
    have hne := State.len_ne_zero_of_not_empty hr hw (fit.pop_nonempty hpop)
    rw [fit.one_removed hpop, Bool.toNat_true, Bool.toNat_false]
    omega
  | false =>
    cases hdrop : drop with
    | true =>
      obtain ⟨-, hfull⟩ := fit.drop_full hdrop
      rw [(State.isFull_iff hr hw).mp hfull, Bool.toNat_true, Bool.toNat_false]
      omega
    | false => exact Nat.zero_le _

theorem isEmpty_of_contents_ne_nil {s : State} (h : s.inv) (hs : s.resetSeen = true) (hne : s.contents ≠ []) :
    s.isEmpty = false :=
  Bool.eq_false_iff.mpr fun he => hne (contents_eq_nil h hs he)

/-- A buffer that holds one element holds it in slot `read_index`. -/
theorem read_of_contents_singleton {s : State} (h : s.inv) (hs : s.resetSeen = true) {d : Elem} (hd : s.contents = [d]) :
    s.len = 1 ∧ s.storage.read s.readIndex = some d := by
  obtain ⟨hr, -, hc⟩ := h.ready hs
  have hlen : s.len = 1 := by rw [← contents_length hr hc, hd]; rfl
  exact ⟨hlen, by rw [← contents_head? hr hc (by omega), hd]; rfl⟩

/-- Where the elements held stay in front and `read_index` stands, every live slot reads as before. -/
theorem read_slot_of_contents_append {s t : State} (hsi : s.inv) (hss : s.resetSeen = true) (hti : t.inv)
    (hts : t.resetSeen = true) (hcfg : t.cfg = s.cfg) (hread : t.readIndex = s.readIndex) {new : List Elem}
    (hcont : t.contents = s.contents ++ new) {k : Nat} (hk : k < s.len) :
    t.storage.read (s.cfg.advance s.readIndex k) = s.storage.read (s.cfg.advance s.readIndex k) := by
  obtain ⟨hr, -, hc⟩ := hsi.ready hss
  obtain ⟨hr', -, hc'⟩ := hti.ready hts
  have hlen := contents_length hr hc
  have hk' : k < t.len := by
    rw [← contents_length hr' hc', hcont, List.length_append]
    omega
  calc t.storage.read (s.cfg.advance s.readIndex k) = t.contents[k]? := by
        rw [contents_getElem? hr' hc' hk', hcfg, hread]
    _ = s.contents[k]? := by rw [hcont, List.getElem?_append_left (by omega)]
    _ = s.storage.read (s.cfg.advance s.readIndex k) := contents_getElem? hr hc hk

section
variable {s : State} {w : Input} {rest : List Input} {p : ProducerCmd} {k : ConsumerCmd} (h : s.inv)
  (hs : s.resetSeen = true) (hd : s.drives w rest) (hdec : decode s.cfg w = .ok (.cycle p k))
include h hs hd hdec

/-- An accepted element is the newest one held after the edge, unless USABLE is 0 (70_reset_and_hazards.md R235). -/
theorem step_contents_of_accepted {t : State} (hstep : step s = .next t)
    (hacc : (p.isPush = true ∧ s.isFull = false) ∨ p = .pushOvw (w.wrData % 2 ^ s.cfg.dataW))
    (hu : s.cfg.usable ≠ 0) : ∃ n, t.contents = s.contents.drop n ++ [w.wrData % 2 ^ s.cfg.dataW] := by
  obtain ⟨x, t', hx, hstep', -, -, -, -, -, -, -, hcont⟩ := step_contents h hs hd hdec
  cases hstep.symm.trans hstep'
  obtain ⟨hr, hw, hc⟩ := h.ready hs
  obtain ⟨hpop, -, -⟩ := consumerSignals_closed hx
  obtain ⟨hwrite, -, -⟩ := producerSignals_closed hdec s x.popAcc
  have hle := (signalsFit p fun hpopped => (hpop.mp hpopped).2).removed_le_len hr hw hu
  rw [hwrite.mpr hacc, if_pos rfl, List.drop_append_of_le_length (by rwa [contents_length hr hc])] at hcont
  exact ⟨_, hcont⟩

/-- A cycle that stores nothing and pops leaves a buffer that is not full (70_reset_and_hazards.md R236). -/
theorem step_isFull_of_popped {t : State} (hstep : step s = .next t) (he : s.isEmpty = false) (hk : k = .pop)
    (hwrite : ∀ popAcc, (producerSignals p s popAcc).wAcc = false) : t.isFull = false := by
  obtain ⟨x, t', hx, hstep', htinv, hts, hcfg, -, -, -, hlen, -⟩ := step_contents h hs hd hdec
  cases hstep.symm.trans hstep'
  obtain ⟨hr, hw, hc⟩ := h.ready hs
  obtain ⟨hr', hw', -⟩ := htinv.ready hts
  obtain ⟨hpop, -, -⟩ := consumerSignals_closed hx
  have hne := State.len_ne_zero_of_not_empty hr hw he
  have hle := hc.len_le_usable
  rw [hwrite, hpop.mpr ⟨hk, he⟩, Bool.toNat_true, Bool.toNat_false] at hlen
  rw [← Bool.not_eq_true, State.isFull_iff hr' hw', hcfg]
  omega

/-- `read_index` moves only for an element removed (70_reset_and_hazards.md R234). -/
theorem step_readIndex_of_kept {t : State} (hstep : step s = .next t) (hpopped : (cycleLog w s t).popped = [])
    (hdropped : (cycleLog w s t).dropped = 0) : t.readIndex = s.readIndex := by
  obtain ⟨x, t', hx, hstep', -, -, -, -, hout, hread, -⟩ := step_contents h hs hd hdec
  cases hstep.symm.trans hstep'
  obtain ⟨hr, -, -⟩ := h.ready hs
  rw [cycleLog_step hdec hx hout] at hpopped hdropped
  have hpop : x.popAcc = false := by simpa using hpopped
  have hdrop : (producerSignals p s x.popAcc).drop.toNat = 0 := hdropped
  rw [hread, hdrop, hpop]
  exact s.cfg.advance_zero hr

end

/-! ## The instance that can hold nothing -/

theorem capacity_of_reqCapacity_one {c : Config} (h : c.reqCapacity = 1) : c.capacity = 1 := by
  rw [Config.capacity, h]
  rfl

/-- States of one configuration with CAPACITY = 1 and USABLE = 0 have the same hardware part. -/
theorem arch_eq_of_usable_eq_zero {s t : State} (hsi : s.inv) (hti : t.inv) (hss : s.resetSeen = true)
    (hts : t.resetSeen = true) (hcfg : t.cfg = s.cfg) (hu : s.cfg.usable = 0) : t.arch = s.arch := by
  obtain ⟨hr, -, -⟩ := hsi.ready hss
  obtain ⟨hr', -, -⟩ := hti.ready hts
  obtain ⟨-, hcap⟩ := s.cfg.usable_eq_zero_iff.mp hu
  have hempty := State.contents_of_len_zero (State.len_eq_zero_of_usable_eq_zero hu)
  have hempty' := State.contents_of_len_zero (State.len_eq_zero_of_usable_eq_zero (hcfg ▸ hu))
  rw [hcfg] at hr'
  exact arch_eq_of_contents hti hsi hts hss hcfg (by omega) (hempty'.trans hempty.symm)

theorem isEmpty_and_isFull_of_usable_eq_zero {s : State} (h : s.inv) (hs : s.resetSeen = true) (hu : s.cfg.usable = 0) :
    s.isEmpty = true ∧ s.isFull = true := by
  obtain ⟨hr, hw, -⟩ := h.ready hs
  exact (State.isEmpty_and_isFull_iff hr hw).mpr hu

end Sys2Proof.Machine

open Sys2Proof Sys2Proof.Machine

/-- Settles O28: RESET's registers, storage and outputs are constants or fields of the state before it, and once reset the
status outputs follow their rules. -/
theorem resetClearsTheMachine : Obligations.ResetClearsTheMachine := by
  unfold Obligations.ResetClearsTheMachine
  intro s
  exact ⟨_, exec_reset s, rfl, rfl, rfl, fun _ => rfl, rfl, rfl, rfl, rfl, rfl, rfl, rfl, rfl,
    fun hs => ⟨emptyOut_eq hs, fullOut_eq hs, countOut_eq hs⟩⟩

/-- Settles O36: RESET, the status rows and NEW each make one update of the state, which has the frame claimed. -/
theorem resetStatusAndNewFrame : Obligations.ResetStatusAndNewFrame := by
  unfold Obligations.ResetStatusAndNewFrame
  refine ⟨fun s t hrun => ?_, fun s t i hi hrun => ?_, fun s t params hrun => ?_⟩
  · rw [exec_reset] at hrun
    cases hrun
    exact ⟨rfl, rfl, rfl, rfl, rfl⟩
  · rcases hi with rfl | rfl | rfl <;> cases hrun <;> exact ⟨rfl, rfl, rfl, rfl, rfl, rfl, rfl, rfl⟩
  · obtain ⟨c, rfl⟩ := exec_new_eq_next hrun
    exact ⟨rfl, rfl⟩

/-- Settles O41: every port command waits for the first RESET cycle, and no step but RESET writes `reset_seen`. -/
theorem unresetMachineRefusesCommands : Obligations.UnresetMachineRefusesCommands := by
  unfold Obligations.UnresetMachineRefusesCommands
  refine ⟨fun s i hs hi => ?_, fun s => ⟨_, exec_reset s, rfl⟩, fun s t hs hstep => step_resetSeen hs hstep⟩
  rcases hi with rfl | ⟨d, rfl⟩ | rfl | ⟨d, rfl⟩ | rfl | rfl | rfl | rfl <;> exact whenReady_of_unreset hs _

/-- Settles O51: signals and status outputs are those of the pre-edge state; an accepted element joins the elements held at the
end, and a slot is freed only with the edge. -/
theorem noBypassBetweenPorts : Obligations.NoBypassBetweenPorts := by
  unfold Obligations.NoBypassBetweenPorts
  intro s w rest p k hinv hs hd hdec
  obtain ⟨x, t, hx, hstep, htinv, hts, -, -, hout, -⟩ := step_contents hinv hs hd hdec
  refine ⟨t, hstep, ?_, ?_, fun he hk => ?_, fun hacc hu => ?_, fun hf hpush => ?_, fun hf hp hk he => ⟨?_, ?_⟩⟩
  · rw [hout]; exact emptyOut_eq hs
  · rw [hout]; exact countOut_eq hs
  · rw [hout]; exact (consumerSignals_resp_eq_empty_iff hx).mpr ⟨hk, he⟩
  · obtain ⟨n, hcont⟩ := step_contents_of_accepted hinv hs hd hdec hstep hacc hu
    refine ⟨isEmpty_of_contents_ne_nil htinv hts (by simp [hcont]), by simp [hcont], fun he => ?_⟩
    rw [contents_eq_nil hinv hs he, List.drop_nil] at hcont
    exact read_of_contents_singleton htinv hts hcont
  · rw [hout]; exact (producerSignals_resp_eq_full_iff p s _).mpr ⟨hpush, hf⟩
  · rw [hout]; exact (consumerSignals_resp_eq_ok_iff (.inl hk) hx).mpr he
  · refine step_isFull_of_popped hinv hs hd hdec hstep he hk fun popAcc => ?_
    rcases hp with hpush | rfl
    · rw [producerSignals_of_rejected ⟨hpush, hf⟩]; rfl
    · rfl

/-- Settles O52: the status outputs and the responses of a cycle read the same flags of the pre-edge state. -/
theorem statusPredictsAcceptance : Obligations.StatusPredictsAcceptance := by
  unfold Obligations.StatusPredictsAcceptance
  intro s w rest p k hinv hs hd hdec
  obtain ⟨x, t, hx, hstep, -, -, -, -, hout, -⟩ := step_contents hinv hs hd hdec
  refine ⟨t, hstep, ?_⟩
  rw [hout, State.outputs_full, State.outputs_empty, State.outputs_wrResp, State.outputs_rdResp,
    State.fullOut_of_resetSeen hs, State.emptyOut_of_resetSeen hs]
  refine ⟨fun hpush => producerSignals_resp_eq_ok_iff hpush s _, fun hk => consumerSignals_resp_eq_ok_iff hk hx,
    fun hkeeps hfull => ?_, fun hkeeps hempty => ?_⟩
  · obtain ⟨hpush, hf⟩ := (producerSignals_resp_eq_full_iff p s _).mp hfull
    cases hf.symm.trans (hkeeps hpush)
  · obtain ⟨hk, he⟩ := (consumerSignals_resp_eq_empty_iff hx).mp hempty
    cases he.symm.trans (hkeeps hk)

/-- Settles O53: no slot is usable, so both flags stand, nothing is held, and there is only one state to be in. -/
theorem degenerateInstanceHoldsNothing : Obligations.DegenerateInstanceHoldsNothing := by
  unfold Obligations.DegenerateInstanceHoldsNothing
  refine ⟨fun s t hinv hs hm hreq hstep => ?_, fun s w rest p k hinv hs hm hreq hd hdec => ?_⟩
  · have hcap := capacity_of_reqCapacity_one hreq
    have hu := s.cfg.usable_eq_zero_iff.mpr ⟨hm, hcap⟩
    obtain ⟨he, hf⟩ := isEmpty_and_isFull_of_usable_eq_zero hinv hs hu
    obtain ⟨hempty, hfull, -⟩ := step_status_outputs hstep
    have hlen : t.len = 0 := State.len_eq_zero_of_usable_eq_zero (step_cfg hstep ▸ hu)
    exact ⟨hcap, hu, hempty.trans ((State.emptyOut_of_resetSeen hs).trans he),
      hfull.trans ((State.fullOut_of_resetSeen hs).trans hf), State.contents_of_len_zero hlen⟩
  · have hu := s.cfg.usable_eq_zero_iff.mpr ⟨hm, capacity_of_reqCapacity_one hreq⟩
    obtain ⟨he, hf⟩ := isEmpty_and_isFull_of_usable_eq_zero hinv hs hu
    obtain ⟨x, t, hx, hstep, htinv, hts, hcfg, -, hout, -⟩ := step_contents hinv hs hd hdec
    refine ⟨t, hstep, arch_eq_of_usable_eq_zero hinv htinv hs hts hcfg hu, ?_⟩
    rw [hout]
    refine ⟨fun hpush => (producerSignals_resp_eq_full_iff p s _).mpr ⟨hpush, hf⟩,
      fun hk => (consumerSignals_resp_eq_empty_iff hx).mpr ⟨hk, he⟩, ?_⟩
    rintro rfl
    rfl

/-- Settles O57: by the accounts of the cycle the elements held stay in front, and `read_index` moves only for a removed one. -/
theorem elementsLeaveOnlyByPopOrDrop : Obligations.ElementsLeaveOnlyByPopOrDrop := by
  unfold Obligations.ElementsLeaveOnlyByPopOrDrop
  intro s t w rest hinv hd h4 hstep hpopped hdropped
  have hcont := (step_accounts hinv hd h4 hstep).eq_append hpopped hdropped
  obtain ⟨hs, p, k, hdec⟩ := step_commands hd h4 hstep
  have hkept := step_readIndex_of_kept hinv hs hd hdec hstep hpopped hdropped
  refine ⟨_, hcont, fun k hk => ?_⟩
  rw [← s.cfg.advance_eq_mod]
  exact read_slot_of_contents_append hinv hs (step_inv hinv hstep) (step_resetSeen hs hstep) (step_cfg hstep) hkept hcont hk

end
